-- ==== Sys2Proof/Word.lean ====
section
/-! DEFINITION. The word types of the CHIP-8 core (spec/00_scope.md R5, R6; spec/10_state.md R20 to R25):
everything the spec treats as bits, at the spec's width. Every value is unsigned. -/

namespace Sys2Proof

/-- A byte: a V register, a timer, a memory cell (REG_BITS, TIMER_BITS). -/
abbrev Byte := BitVec 8

/-- A 16-bit value: an instruction word, PC, I, a return address (PC_BITS, I_BITS, STACK_ENTRY_BITS). -/
abbrev Word := BitVec 16

/-- The 12-bit address field NNN (ADDR_BITS). -/
abbrev Addr := BitVec 12

/-- A 4-bit field: N, and a key index. -/
abbrev Nibble := BitVec 4

/-- The index of a V register, the X and Y fields (NUM_REGS = 16, so every value is legal). -/
abbrev RegIdx := BitVec 4

end Sys2Proof
end

