-- ==== Sys2Proof/Config.lean ====
section
/-! DEFINITION. What an implementation fixes and the one free value (spec/00_scope.md R5; spec/10_state.md R32).
The third parameter, FONT_ROM, has its default in Machine/Font.lean; all three are the argument `Params` of `stepWith`,
`performWith` and `runOpsWith` (Machine/Params.lean). -/

namespace Sys2Proof

/-- STACK_DEPTH: the greatest number of entries of the call stack, `none` for unbounded, which is the spec's default
(spec/10_state.md R24; decision D5; log entry 4). This is the default; `Params.stackDepth` is the argument. -/
def Config.stackDepth : Option Nat := none

/-- MAX_PROGRAM_LEN: the longest image Load accepts (spec/70_reset_and_hazards.md R233; conflict C2, decision D15;
log entry 6). This is the default; `Params.maxProgramLen` is the argument. -/
def Config.maxProgramLen : Nat := 3583

/-- The random bytes the outside presents, in the order RND consumes them: a free value, without a body, so nothing is
known of any of them (spec/42_alu.md R132; spec/60_exceptions.md R212; decision D16; log entry 3). -/
opaque Config.rndInput : Nat → Byte

end Sys2Proof
end

