-- ==== Sys2Proof/Machine/State.lean ====
section
/-! DEFINITION. The state of the core as plain data (spec/10_state.md R20 to R28), the reasons a step or an operation
stops, and the state after reset (R33). -/

namespace Sys2Proof.Machine

/-- Memory: the bytes that differ from what an unlisted address reads as, with rising addresses (`Memory.wf` in
Machine/Memory.lean; log entry 18). -/
abbrev Memory := List Host.Cell

/-- The framebuffer FB: 32 rows of 64 pixels, FB[y][x] (R27; log entry 26). -/
abbrev Framebuffer := Vector (Vector Bool 64) 32

/-- Everything the spec gives the machine (R20 to R28), and the count of random bytes consumed, which is the model's own
(log entry 3). There is no status, mode or hidden state (R30, R31). -/
structure State where
  /-- V[0] to V[15]; V[15] is the flag register VF (R20, R21). -/
  v : Vector Byte 16
  /-- The index register I, 16 bits (R22). -/
  i : Word
  /-- The program counter, 16 bits (R23). -/
  pc : Word
  /-- The call stack, newest entry first (R24). -/
  stack : List Word
  /-- The delay timer DT (R25). -/
  dt : Byte
  /-- The sound timer ST (R25). -/
  st : Byte
  /-- KEY[0] to KEY[15], true for pressed (R26). -/
  key : Vector Bool 16
  /-- The framebuffer (R27). -/
  fb : Framebuffer
  /-- The 4096 bytes of memory (R28). -/
  mem : Memory
  /-- How many bytes of `Config.rndInput` RND has consumed: the model's own (log entry 3). -/
  draws : Nat
  deriving DecidableEq, Repr

/-- Why a step has no successor state (spec/60_exceptions.md R201, R202): both safe, since nothing can be concluded about
what follows. The argument is the address of the faulting word. -/
inductive Fault where
  /-- RET on an empty call stack (R103; decision D4). Safe: the hardware's behaviour there is undefined. -/
  | stackUnderflow (addr : Word)
  /-- CALL on a full call stack, only when STACK_DEPTH is finite (R102; decision D5). Safe: undefined there too. -/
  | stackOverflow (addr : Word)
  deriving DecidableEq, Repr

/-- What the model gives no meaning to. No instruction ends in one: the last two are raised by operations of the outside. -/
inductive Refusal where
  /-- An instruction without a meaning; no arm of `exec` answers it any more. Safe. -/
  | notModelled (mnemonic : String)
  /-- KeySet or KeyClear with an index that the 4-bit port cannot carry (R207; decision D17). Safe. -/
  | keyIndexTooWide (k : Nat)
  /-- An operation other than Reset after a fault (R201). Safe. -/
  | afterFault
  deriving DecidableEq, Repr

/-- The outcome of an instruction, a step or an operation. -/
abbrev Result := Host.Outcome State Fault Refusal

/-- The state after Reset and at power-on (R33; spec/70_reset_and_hazards.md R230, R231): PC at 0x200, the memory image with
nothing changed, everything else zero. `draws` starts at 0 (log entry 3). -/
def State.reset : State where
  v := Vector.replicate 16 0#8
  i := 0x0000#16
  pc := 0x0200#16
  stack := []
  dt := 0x00#8
  st := 0x00#8
  key := Vector.replicate 16 false
  fb := Vector.replicate 32 (Vector.replicate 64 false)
  mem := []
  draws := 0

end Sys2Proof.Machine
end

