-- ==== Sys2Proof/Machine/Memory.lean ====
section
/-! DEFINITION. The memory array MEM (spec/20_memory.md R50 to R52) and the two primitives through which every access goes
(spec/00_scope.md R8). -/

namespace Sys2Proof.Machine

/-- MEM_SIZE (R50). -/
def memSize : Nat := 4096

/-- What an address that nothing has changed reads as: the reset image, FONT_ROM in 0x000 to 0x04F and zero above
(spec/10_state.md R33; log entry 18). The font is the default one, which decides how memory is held and not what it holds: a
Reset under another font lists the bytes that differ (`resetMemory`, log entry 33). -/
def blankByte (a : Nat) : Byte := fontRom.getD a 0x00#8

/-- The canonical form: addresses strictly rising, inside the array, no entry equal to what an unlisted address reads as. -/
abbrev Memory.wf (m : Memory) : Prop :=
  m.Pairwise (fun p q => p.1 < q.1) ∧ ∀ c ∈ m, c.1 < memSize ∧ c.2 ≠ blankByte c.1

/-- The byte MEM[a] of the array, `a` below 4096. -/
def Memory.read : Memory → Nat → Byte
  | [], a => blankByte a
  | (k, b) :: rest, a => if a = k then b else Memory.read rest a

/-- Store a byte at MEM[a], `a` below 4096, keeping the canonical form. -/
def Memory.write : Memory → Nat → Byte → Memory
  | [], a, b => if b = blankByte a then [] else [(a, b)]
  | (k, c) :: rest, a, b =>
    if a < k then (if b = blankByte a then (k, c) :: rest else (a, b) :: (k, c) :: rest)
    else if a = k then (if b = blankByte a then rest else (a, b) :: rest)
    else (k, c) :: Memory.write rest a b

/-- The address presented to the array for a computed address: reduced modulo 4096 (R8, R52; decision D1). -/
def arrayAddr (addr : Nat) : Nat := addr % memSize

/-- MemRead(addr, 1). -/
def memRead (m : Memory) (addr : Nat) : Byte := m.read (arrayAddr addr)

/-- MemWrite(addr, 1, b). -/
def memWrite (m : Memory) (addr : Nat) (b : Byte) : Memory := m.write (arrayAddr addr) b

/-- MemRead(addr, n): n bytes in ascending order (R8, R62). -/
def memReadBytes (m : Memory) : Nat → Nat → List Byte
  | _, 0 => []
  | addr, n + 1 => memRead m addr :: memReadBytes m (addr + 1) n

/-- MemWrite(addr, n, bytes): the bytes in ascending order (R8, R62). -/
def memWriteBytes (m : Memory) : Nat → List Byte → Memory
  | _, [] => m
  | addr, b :: bs => memWriteBytes (memWrite m addr b) (addr + 1) bs

end Sys2Proof.Machine
end

