-- ==== Sys2Proof/Machine/Ops.lean ====
section
/-! DEFINITION. The named operations over the registers, the stack, the framebuffer and memory, and the one operation that
raises a fault. The core has no exception, so there is no exception entry and no return from one (spec/60_exceptions.md
R200): a fault is the only way a step ends without a successor (R201). -/

namespace Sys2Proof.Machine

/-- VF is V[15] (spec/10_state.md R21). -/
def flagReg : RegIdx := 15#4

/-- V[x]. -/
def State.readV (s : State) (x : RegIdx) : Byte := s.v[x.toNat]'(x.isLt)

/-- V[x] <- b. -/
def State.writeV (s : State) (x : RegIdx) (b : Byte) : State := { s with v := s.v.set x.toNat b x.isLt }

/-- V[j], V[j+1], ... <- the bytes of the list; what would pass V[15] is dropped (never met: R146 loads at most V[15]). -/
def State.writeVs (s : State) : Nat → List Byte → State
  | _, [] => s
  | j, b :: bs => if j < 16 then (s.writeV (BitVec.ofNat 4 j) b).writeVs (j + 1) bs else s

/-- V[0] to V[n-1], in order. -/
def State.readVs (s : State) (n : Nat) : List Byte := (List.range n).map (fun j => s.readV (BitVec.ofNat 4 j))

/-- I <- w. -/
def State.writeI (s : State) (w : Word) : State := { s with i := w }

/-- PC <- w, a control transfer (spec/41_control_flow.md R100). -/
def State.jump (s : State) (w : Word) : State := { s with pc := w }

/-- push(STACK, w). -/
def State.push (s : State) (w : Word) : State := { s with stack := w :: s.stack }

/-- What is left of the stack when its newest entry is taken. -/
def State.withStack (s : State) (rest : List Word) : State := { s with stack := rest }

/-- DT <- b. -/
def State.writeDT (s : State) (b : Byte) : State := { s with dt := b }

/-- ST <- b. -/
def State.writeST (s : State) (b : Byte) : State := { s with st := b }

/-- KEY[k]. -/
def State.readKey (s : State) (k : Nibble) : Bool := s.key[k.toNat]'(k.isLt)

/-- KEY[k] <- p. -/
def State.writeKey (s : State) (k : Nibble) (p : Bool) : State := { s with key := s.key.set k.toNat p k.isLt }

/-- FB <- the grid. -/
def State.writeFB (s : State) (g : Framebuffer) : State := { s with fb := g }

/-- MEM <- the memory. -/
def State.writeMem (s : State) (m : Memory) : State := { s with mem := m }

/-- The random byte presented to this step has been consumed (spec/42_alu.md R132). -/
def State.consumeRandom (s : State) : State := { s with draws := s.draws + 1 }

/-- depth(STACK) = STACK_DEPTH, never so when it is unbounded (spec/41_control_flow.md R102). -/
def State.stackFull (s : State) : Option Nat → Bool
  | none => false
  | some depth => decide (s.stack.length = depth)

/-- PC + 2 modulo 65536: past the fetched word (spec/40_fetch_decode_execute.md R90), or over the next one. -/
def State.advance (s : State) : State := s.jump (s.pc + 2#16)

/-- PC - 2 modulo 65536: back to the word being executed (spec/45_keypad_and_timers.md R172). -/
def State.rewind (s : State) : State := s.jump (s.pc - 2#16)

/-- The common form of every skip: one more word is passed over when the condition holds (R100, R105). -/
def State.skipIf (s : State) (c : Bool) : State := if c then s.advance else s

/-- raise: the step has no successor; the fault records the address of the word being executed, PC - 2 (spec/00_scope.md R9;
spec/60_exceptions.md R201, R202). -/
def raiseFault (cause : Word → Fault) (s : State) : Result := .fault (cause (s.pc - 2#16))

/-- FB[y][x]. -/
def Framebuffer.pixel (g : Framebuffer) (y : Fin 32) (x : Fin 64) : Bool := (g[y.val]'(y.isLt))[x.val]'(x.isLt)

/-- FB[y][x] <- FB[y][x] XOR 1. -/
def Framebuffer.toggle (g : Framebuffer) (y : Fin 32) (x : Fin 64) : Framebuffer :=
  g.set y.val ((g[y.val]'(y.isLt)).set x.val (!g.pixel y x) x.isLt) y.isLt

/-- The grid with every cell 0. -/
def Framebuffer.clear : Framebuffer := Vector.replicate 32 (Vector.replicate 64 false)

end Sys2Proof.Machine
end

