-- ==== Sys2Proof/Machine/Flags.lean ====
section
/-! DEFINITION. The flag computations (spec/42_alu.md R120, R127 to R131; spec/10_state.md R21) and the order in which an
instruction writes the flag and its result (spec/40_fetch_decode_execute.md R91). -/

namespace Sys2Proof.Machine

/-- A flag is the number 0x00 or 0x01 (R120). -/
def flagByte (c : Bool) : Byte := if c then 0x01#8 else 0x00#8

/-- The carry of a + b: the exact sum exceeds 255 (R120, R127). -/
def addCarry (a b : Byte) : Byte := flagByte (decide (255 < a.toNat + b.toNat))

/-- The not-borrow of a - b: 0 when b exceeds a, else 1 (R120, R128, R130). -/
def subNotBorrow (a b : Byte) : Byte := flagByte (decide (b.toNat ≤ a.toNat))

/-- The bit a shift right by one moves out: bit 0 (R129). -/
def shrOut (a : Byte) : Byte := flagByte (a.getLsbD 0)

/-- The bit a shift left by one moves out: bit 7 (R131). -/
def shlOut (a : Byte) : Byte := flagByte (a.getLsbD 7)

/-- VF is written first and the result second, so with x = 15 the result stays (R91; decision D6). Both values come from
operands sampled before any write. -/
def State.writeFlagThenResult (s : State) (x : RegIdx) (flag result : Byte) : State := (s.writeV flagReg flag).writeV x result

end Sys2Proof.Machine
end

