-- ==== Sys2Proof/Machine/Alu.lean ====
section
/-! DEFINITION. Register arithmetic, logic, shifts and random (spec/42_alu.md). Addition and subtraction of bytes wrap
modulo 256 (R120); X is the destination of every form (decision D8). -/

namespace Sys2Proof.Machine

/-- LD Vx, NN (R121). -/
def execLdImm (x : RegIdx) (nn : Byte) (s : State) : Result := .next (s.writeV x nn)

/-- ADD Vx, NN (R122): the carry is discarded. -/
def execAddImm (x : RegIdx) (nn : Byte) (s : State) : Result := .next (s.writeV x (s.readV x + nn))

/-- LD Vx, Vy (R123). -/
def execLdReg (x y : RegIdx) (s : State) : Result := .next (s.writeV x (s.readV y))

/-- OR Vx, Vy (R124): VF is left alone. -/
def execOr (x y : RegIdx) (s : State) : Result := .next (s.writeV x (s.readV x ||| s.readV y))

/-- AND Vx, Vy (R125). -/
def execAnd (x y : RegIdx) (s : State) : Result := .next (s.writeV x (s.readV x &&& s.readV y))

/-- XOR Vx, Vy (R126). -/
def execXor (x y : RegIdx) (s : State) : Result := .next (s.writeV x (s.readV x ^^^ s.readV y))

/-- ADD Vx, Vy (R127). -/
def execAddReg (x y : RegIdx) (s : State) : Result :=
  .next (s.writeFlagThenResult x (addCarry (s.readV x) (s.readV y)) (s.readV x + s.readV y))

/-- SUB Vx, Vy (R128). -/
def execSub (x y : RegIdx) (s : State) : Result :=
  .next (s.writeFlagThenResult x (subNotBorrow (s.readV x) (s.readV y)) (s.readV x - s.readV y))

/-- SHR Vx (R129): V[x] in place, V[y] is not read (decision D7). -/
def execShr (x : RegIdx) (s : State) : Result := .next (s.writeFlagThenResult x (shrOut (s.readV x)) (s.readV x >>> 1))

/-- SUBN Vx, Vy (R130): the operands of SUB exchanged. -/
def execSubn (x y : RegIdx) (s : State) : Result :=
  .next (s.writeFlagThenResult x (subNotBorrow (s.readV y) (s.readV x)) (s.readV y - s.readV x))

/-- SHL Vx (R131): V[x] in place, V[y] is not read (decision D7). -/
def execShl (x : RegIdx) (s : State) : Result := .next (s.writeFlagThenResult x (shlOut (s.readV x)) (s.readV x <<< 1))

/-- RND Vx, NN for a given random byte (R132). -/
def State.randomAnd (s : State) (rnd : Byte) (x : RegIdx) (nn : Byte) : State := s.writeV x (rnd &&& nn)

/-- RND Vx, NN (R132): the byte is the next of the free input sequence, and it is consumed. -/
def execRnd (x : RegIdx) (nn : Byte) (s : State) : Result :=
  .next (s.randomAnd (Config.rndInput s.draws) x nn).consumeRandom

end Sys2Proof.Machine
end

