-- ==== Sys2Proof/Machine/Operands.lean ====
section
/-! DEFINITION. The operand forms (spec/30_encoding.md R73; spec/43_index_and_memory.md R140; spec/44_display.md R160;
spec/45_keypad_and_timers.md R170): immediates, data addresses, glyph addresses, digits, key indices, pixels. -/

namespace Sys2Proof.Machine

/-- zext_16(NNN) (R73). -/
def zextAddr (nnn : Addr) : Word := nnn.setWidth 16

/-- zext_16 of a register's value. -/
def zextByte (b : Byte) : Word := b.setWidth 16

/-- The computed address of the byte at offset `j` from I; the array reduces it modulo 4096 (R140). -/
def dataAddr (i0 : Word) (j : Nat) : Nat := i0.toNat + j

/-- V[x] times the glyph stride 5, the whole byte, at most 1275 (R143). -/
def glyphAddr (vx : Byte) : Word := zextByte vx * 5#16

/-- The hundreds, tens and ones digits of a byte (R144). -/
def bcdDigits (vx : Byte) : List Byte :=
  [BitVec.ofNat 8 (vx.toNat / 100), BitVec.ofNat 8 (vx.toNat / 10 % 10), BitVec.ofNat 8 (vx.toNat % 10)]

/-- How many registers a dump or load with field X moves: V[0] to V[x] (R145, R146). -/
def rangeCount (x : RegIdx) : Nat := x.toNat + 1

/-- The key index in V[x]: its low nibble (R170; decision D9). -/
def keyIndex (vx : Byte) : Nibble := vx.extractLsb' 0 4

/-- The framebuffer column of sprite column `c`: (vx + c) mod 64 (R160). -/
def pixelColumn (vx : Byte) (c : Nat) : Fin 64 := Fin.ofNat 64 (vx.toNat + c)

/-- The framebuffer row of sprite row `r`: (vy + r) mod 32 (R160). -/
def pixelRow (vy : Byte) (r : Nat) : Fin 32 := Fin.ofNat 32 (vy.toNat + r)

/-- Sprite column `c` of a row byte is bit 7 - c: bit 7 is the leftmost (R160; decision D13). -/
def spriteBit (b : Byte) (c : Nat) : Bool := b.getLsbD (7 - c)

end Sys2Proof.Machine
end

