-- ==== Sys2Proof/Machine/ControlFlow.lean ====
section
/-! DEFINITION. Jumps, call, return and the skips on registers (spec/41_control_flow.md). `s.pc` is already the fetched
word's address plus 2 (spec/40_fetch_decode_execute.md R90). -/

namespace Sys2Proof.Machine

/-- JP NNN (R101). -/
def execJp (nnn : Addr) (s : State) : Result := .next (s.jump (zextAddr nnn))

/-- CALL NNN under a given STACK_DEPTH (R102): the advanced PC is pushed whole. -/
def execCallWith (stackDepth : Option Nat) (nnn : Addr) (s : State) : Result :=
  if s.stackFull stackDepth then raiseFault .stackOverflow s else .next ((s.push s.pc).jump (zextAddr nnn))

/-- CALL NNN (R102). -/
def execCall (nnn : Addr) (s : State) : Result := execCallWith Config.stackDepth nnn s

/-- RET (R103): the newest entry, all 16 bits; on an empty stack a fault. -/
def execRet (s : State) : Result :=
  match s.stack with
  | [] => raiseFault .stackUnderflow s
  | w :: rest => .next ((s.withStack rest).jump w)

/-- JP V0, NNN (R104): the sum is kept unreduced, at most 0x10FE. -/
def execJpV0 (nnn : Addr) (s : State) : Result := .next (s.jump (zextByte (s.readV 0#4) + zextAddr nnn))

/-- SE Vx, NN (R105). -/
def execSeImm (x : RegIdx) (nn : Byte) (s : State) : Result := .next (s.skipIf (s.readV x == nn))

/-- SNE Vx, NN (R106). -/
def execSneImm (x : RegIdx) (nn : Byte) (s : State) : Result := .next (s.skipIf (s.readV x != nn))

/-- SE Vx, Vy (R107). -/
def execSeReg (x y : RegIdx) (s : State) : Result := .next (s.skipIf (s.readV x == s.readV y))

/-- SNE Vx, Vy (R108). -/
def execSneReg (x y : RegIdx) (s : State) : Result := .next (s.skipIf (s.readV x != s.readV y))

end Sys2Proof.Machine
end

