-- ==== Sys2Proof/Machine/Display.lean ====
section
/-! DEFINITION. Clear screen and the sprite compositor (spec/44_display.md). -/

namespace Sys2Proof.Machine

/-- The picture while a sprite is being drawn: the grid and whether a set pixel has been turned off yet. -/
structure Canvas where
  grid : Framebuffer
  collision : Bool
  deriving DecidableEq, Repr

/-- One set sprite bit: a set pixel is a collision, and the pixel is toggled regardless (R162). -/
def Canvas.toggle (c : Canvas) (y : Fin 32) (x : Fin 64) : Canvas :=
  ⟨c.grid.toggle y x, c.collision || c.grid.pixel y x⟩

/-- The columns `col`, `col` + 1, ... of one sprite row, `n` of them, left to right (R160, R162). -/
def Canvas.drawColumns (b vx : Byte) (y : Fin 32) : Nat → Nat → Canvas → Canvas
  | _, 0, c => c
  | col, n + 1, c =>
    Canvas.drawColumns b vx y (col + 1) n (if spriteBit b col then c.toggle y (pixelColumn vx col) else c)

/-- The sprite rows `r`, `r` + 1, ... given as a list of bytes, top to bottom (R160, R162). -/
def Canvas.drawRows (vx vy : Byte) : Nat → List Byte → Canvas → Canvas
  | _, [], c => c
  | r, b :: bs, c => Canvas.drawRows vx vy (r + 1) bs (Canvas.drawColumns b vx (pixelRow vy r) 0 8 c)

/-- CLS (R161): every cell 0, nothing else. -/
def execCls (s : State) : Result := .next (s.writeFB Framebuffer.clear)

/-- The picture after drawing N rows from I at (V[x], V[y]), coordinates sampled before VF is cleared (R162, R91). -/
def State.drawn (s : State) (x y : RegIdx) (n : Nibble) : Canvas :=
  Canvas.drawRows (s.readV x) (s.readV y) 0 (memReadBytes s.mem (dataAddr s.i 0) n.toNat) ⟨s.fb, false⟩

/-- DRW Vx, Vy, N (R162): VF is 1 exactly when some toggled pixel was set. -/
def execDrw (x y : RegIdx) (n : Nibble) (s : State) : Result :=
  .next ((s.writeFB (s.drawn x y n).grid).writeV flagReg (flagByte (s.drawn x y n).collision))

end Sys2Proof.Machine
end

