-- ==== Sys2Proof/Syntax.lean ====
section
/-! DEFINITION. The 34 defined instructions, in the order of spec/opcode_table.json (spec/30_encoding.md R75).
Operands are the fields an instruction uses (R72), at the field's own width; ignored bits (R77) are no operands. -/

namespace Sys2Proof

/-- One constructor per row of the opcode table. -/
inductive Instr where
  /-- CLS, 0_E0 (R161). -/
  | cls
  /-- RET, 0_EE (R103). -/
  | ret
  /-- JP NNN, 1NNN (R101). -/
  | jp (nnn : Addr)
  /-- CALL NNN, 2NNN (R102). -/
  | call (nnn : Addr)
  /-- SE Vx, NN, 3XNN (R105). -/
  | seImm (x : RegIdx) (nn : Byte)
  /-- SNE Vx, NN, 4XNN (R106). -/
  | sneImm (x : RegIdx) (nn : Byte)
  /-- SE Vx, Vy, 5XY_ (R107). -/
  | seReg (x y : RegIdx)
  /-- LD Vx, NN, 6XNN (R121). -/
  | ldImm (x : RegIdx) (nn : Byte)
  /-- ADD Vx, NN, 7XNN (R122). -/
  | addImm (x : RegIdx) (nn : Byte)
  /-- LD Vx, Vy, 8XY0 (R123). -/
  | ldReg (x y : RegIdx)
  /-- OR Vx, Vy, 8XY1 (R124). -/
  | orReg (x y : RegIdx)
  /-- AND Vx, Vy, 8XY2 (R125). -/
  | andReg (x y : RegIdx)
  /-- XOR Vx, Vy, 8XY3 (R126). -/
  | xorReg (x y : RegIdx)
  /-- ADD Vx, Vy, 8XY4 (R127). -/
  | addReg (x y : RegIdx)
  /-- SUB Vx, Vy, 8XY5 (R128). -/
  | sub (x y : RegIdx)
  /-- SHR Vx, 8XY6 (R129). -/
  | shr (x : RegIdx)
  /-- SUBN Vx, Vy, 8XY7 (R130). -/
  | subn (x y : RegIdx)
  /-- SHL Vx, 8XYE (R131). -/
  | shl (x : RegIdx)
  /-- SNE Vx, Vy, 9XY_ (R108). -/
  | sneReg (x y : RegIdx)
  /-- LD I, NNN, ANNN (R141). -/
  | ldI (nnn : Addr)
  /-- JP V0, NNN, BNNN (R104). -/
  | jpV0 (nnn : Addr)
  /-- RND Vx, NN, CXNN (R132). -/
  | rnd (x : RegIdx) (nn : Byte)
  /-- DRW Vx, Vy, N, DXYN (R162). -/
  | drw (x y : RegIdx) (n : Nibble)
  /-- SKP Vx, EX9E (R170). -/
  | skp (x : RegIdx)
  /-- SKNP Vx, EXA1 (R171). -/
  | sknp (x : RegIdx)
  /-- LD Vx, DT, FX07 (R173). -/
  | ldVxDt (x : RegIdx)
  /-- LD Vx, K, FX0A (R172). -/
  | ldVxKey (x : RegIdx)
  /-- LD DT, Vx, FX15 (R174). -/
  | ldDtVx (x : RegIdx)
  /-- LD ST, Vx, FX18 (R175). -/
  | ldStVx (x : RegIdx)
  /-- ADD I, Vx, FX1E (R142). -/
  | addI (x : RegIdx)
  /-- LD F, Vx, FX29 (R143). -/
  | ldF (x : RegIdx)
  /-- LD B, Vx, FX33 (R144). -/
  | ldB (x : RegIdx)
  /-- LD [I], Vx, the register dump, FX55 (R145). -/
  | dump (x : RegIdx)
  /-- LD Vx, [I], the register load, FX65 (R146). -/
  | load (x : RegIdx)
  deriving DecidableEq, Repr

/-- The row's mnemonic in spec/opcode_table.json, letter for letter. -/
def Instr.mnemonic : Instr → String
  | .cls => "CLS"
  | .ret => "RET"
  | .jp _ => "JP_NNN"
  | .call _ => "CALL_NNN"
  | .seImm _ _ => "SE_Vx__NN"
  | .sneImm _ _ => "SNE_Vx__NN"
  | .seReg _ _ => "SE_Vx__Vy"
  | .ldImm _ _ => "LD_Vx__NN"
  | .addImm _ _ => "ADD_Vx__NN"
  | .ldReg _ _ => "LD_Vx__Vy"
  | .orReg _ _ => "OR_Vx__Vy"
  | .andReg _ _ => "AND_Vx__Vy"
  | .xorReg _ _ => "XOR_Vx__Vy"
  | .addReg _ _ => "ADD_Vx__Vy"
  | .sub _ _ => "SUB_Vx__Vy"
  | .shr _ => "SHR_Vx"
  | .subn _ _ => "SUBN_Vx__Vy"
  | .shl _ => "SHL_Vx"
  | .sneReg _ _ => "SNE_Vx__Vy"
  | .ldI _ => "LD_I__NNN"
  | .jpV0 _ => "JP_V0__NNN"
  | .rnd _ _ => "RND_Vx__NN"
  | .drw _ _ _ => "DRW_Vx__Vy__N"
  | .skp _ => "SKP_Vx"
  | .sknp _ => "SKNP_Vx"
  | .ldVxDt _ => "LD_Vx__DT"
  | .ldVxKey _ => "LD_Vx__K"
  | .ldDtVx _ => "LD_DT__Vx"
  | .ldStVx _ => "LD_ST__Vx"
  | .addI _ => "ADD_I__Vx"
  | .ldF _ => "LD_F__Vx"
  | .ldB _ => "LD_B__Vx"
  | .dump _ => "LD__I___Vx"
  | .load _ => "LD_Vx___I"

end Sys2Proof
end

