-- ==== Sys2Proof/Decode.lean ====
section
/-! DEFINITION. Instruction words: the fields, the two-level decoder, the encoder and the opcode table
(spec/30_encoding.md R70 to R79). The opcode numbers are the ones rule R75 gives (log entry 1). -/

namespace Sys2Proof

/-! ### Fields (R71) -/

/-- OP, bits 15:12: the group. -/
def fieldOp (w : Word) : Nibble := w.extractLsb' 12 4

/-- X, bits 11:8. -/
def fieldX (w : Word) : RegIdx := w.extractLsb' 8 4

/-- Y, bits 7:4. -/
def fieldY (w : Word) : RegIdx := w.extractLsb' 4 4

/-- N, bits 3:0. -/
def fieldN (w : Word) : Nibble := w.extractLsb' 0 4

/-- NN, bits 7:0. -/
def fieldNN (w : Word) : Byte := w.extractLsb' 0 8

/-- NNN, bits 11:0. -/
def fieldNNN (w : Word) : Addr := w.extractLsb' 0 12

/-! ### The decoder (R74, R75, R76) -/

/-- Why bytes hold no defined instruction: the unknown words of R76 by group with the sub-opcode that selects nothing, and
(for a byte list only) too few bytes. An unknown word is no fault: the step runs it as a no-op (R94). -/
inductive Reject where
  /-- Fewer than two bytes are left in a byte list; never met by the step, which always fetches two. -/
  | truncated
  /-- Group 0 with a low byte other than E0 and EE. -/
  | group0 (nn : Byte)
  /-- Group 8 with a low nibble in 8, 9, A, B, C, D, F. -/
  | group8 (n : Nibble)
  /-- Group E with a low byte other than 9E and A1. -/
  | groupE (nn : Byte)
  /-- Group F with a low byte other than 07, 0A, 15, 18, 1E, 29, 33, 55, 65. -/
  | groupF (nn : Byte)
  deriving DecidableEq, Repr

/-- Group 0 switches on the low byte; bits 11:8 take no part (R74; decision D10). -/
def decodeGroup0 (nn : Byte) : Except Reject Instr :=
  if nn = 0xE0#8 then .ok .cls
  else if nn = 0xEE#8 then .ok .ret
  else .error (.group0 nn)

/-- Group 8 switches on the low nibble (R74); SHR and SHL ignore Y (R77). -/
def decodeGroup8 (x y : RegIdx) (n : Nibble) : Except Reject Instr :=
  if n = 0x0#4 then .ok (.ldReg x y)
  else if n = 0x1#4 then .ok (.orReg x y)
  else if n = 0x2#4 then .ok (.andReg x y)
  else if n = 0x3#4 then .ok (.xorReg x y)
  else if n = 0x4#4 then .ok (.addReg x y)
  else if n = 0x5#4 then .ok (.sub x y)
  else if n = 0x6#4 then .ok (.shr x)
  else if n = 0x7#4 then .ok (.subn x y)
  else if n = 0xE#4 then .ok (.shl x)
  else .error (.group8 n)

/-- Group E switches on the low byte (R74). -/
def decodeGroupE (x : RegIdx) (nn : Byte) : Except Reject Instr :=
  if nn = 0x9E#8 then .ok (.skp x)
  else if nn = 0xA1#8 then .ok (.sknp x)
  else .error (.groupE nn)

/-- Group F switches on the low byte (R74). -/
def decodeGroupF (x : RegIdx) (nn : Byte) : Except Reject Instr :=
  if nn = 0x07#8 then .ok (.ldVxDt x)
  else if nn = 0x0A#8 then .ok (.ldVxKey x)
  else if nn = 0x15#8 then .ok (.ldDtVx x)
  else if nn = 0x18#8 then .ok (.ldStVx x)
  else if nn = 0x1E#8 then .ok (.addI x)
  else if nn = 0x29#8 then .ok (.ldF x)
  else if nn = 0x33#8 then .ok (.ldB x)
  else if nn = 0x55#8 then .ok (.dump x)
  else if nn = 0x65#8 then .ok (.load x)
  else .error (.groupF nn)

/-- Decode one instruction word, total on all 65536 of them: the high nibble selects the group, and groups 0, 8, E and F
switch once more (R74). Groups 5 and 9 do not look at their low nibble (R74; decision D26). -/
def decodeWord (w : Word) : Except Reject Instr :=
  if fieldOp w = 0x0#4 then decodeGroup0 (fieldNN w)
  else if fieldOp w = 0x1#4 then .ok (.jp (fieldNNN w))
  else if fieldOp w = 0x2#4 then .ok (.call (fieldNNN w))
  else if fieldOp w = 0x3#4 then .ok (.seImm (fieldX w) (fieldNN w))
  else if fieldOp w = 0x4#4 then .ok (.sneImm (fieldX w) (fieldNN w))
  else if fieldOp w = 0x5#4 then .ok (.seReg (fieldX w) (fieldY w))
  else if fieldOp w = 0x6#4 then .ok (.ldImm (fieldX w) (fieldNN w))
  else if fieldOp w = 0x7#4 then .ok (.addImm (fieldX w) (fieldNN w))
  else if fieldOp w = 0x8#4 then decodeGroup8 (fieldX w) (fieldY w) (fieldN w)
  else if fieldOp w = 0x9#4 then .ok (.sneReg (fieldX w) (fieldY w))
  else if fieldOp w = 0xA#4 then .ok (.ldI (fieldNNN w))
  else if fieldOp w = 0xB#4 then .ok (.jpV0 (fieldNNN w))
  else if fieldOp w = 0xC#4 then .ok (.rnd (fieldX w) (fieldNN w))
  else if fieldOp w = 0xD#4 then .ok (.drw (fieldX w) (fieldY w) (fieldN w))
  else if fieldOp w = 0xE#4 then decodeGroupE (fieldX w) (fieldNN w)
  else decodeGroupF (fieldX w) (fieldNN w)

/-- A word from its two bytes in memory order: the byte at the lower address is bits 15:8 (R70; spec/20_memory.md R53). -/
def wordOfBytes (hi lo : Byte) : Word := hi ++ lo

/-- The byte a word has at its lower address. -/
def wordHi (w : Word) : Byte := w.extractLsb' 8 8

/-- The byte a word has at its higher address. -/
def wordLo (w : Word) : Byte := w.extractLsb' 0 8

/-- Decode the instruction at the head of a byte list, with the bytes that follow it. -/
def decodeBytes : List Byte → Except Reject (Instr × List Byte)
  | hi :: lo :: rest =>
    match decodeWord (wordOfBytes hi lo) with
    | .ok i => .ok (i, rest)
    | .error r => .error r
  | _ => .error .truncated

/-! ### The encoder (R75; 0 in ignored bits, R77, decision D22) -/

/-- Formats A. -/
def encodeA (op : Nibble) (nnn : Addr) : Word := op ++ nnn

/-- Format XNN; formats XS and S with the sub-opcode as the low byte. -/
def encodeXNN (op : Nibble) (x : RegIdx) (nn : Byte) : Word := op ++ (x ++ nn : Addr)

/-- Formats XY and XYN. -/
def encodeXYN (op : Nibble) (x y : RegIdx) (n : Nibble) : Word := op ++ (x ++ (y ++ n : Byte) : Addr)

/-- The word of an instruction. -/
def encode : Instr → Word
  | .cls => encodeXNN 0x0#4 0x0#4 0xE0#8
  | .ret => encodeXNN 0x0#4 0x0#4 0xEE#8
  | .jp nnn => encodeA 0x1#4 nnn
  | .call nnn => encodeA 0x2#4 nnn
  | .seImm x nn => encodeXNN 0x3#4 x nn
  | .sneImm x nn => encodeXNN 0x4#4 x nn
  | .seReg x y => encodeXYN 0x5#4 x y 0x0#4
  | .ldImm x nn => encodeXNN 0x6#4 x nn
  | .addImm x nn => encodeXNN 0x7#4 x nn
  | .ldReg x y => encodeXYN 0x8#4 x y 0x0#4
  | .orReg x y => encodeXYN 0x8#4 x y 0x1#4
  | .andReg x y => encodeXYN 0x8#4 x y 0x2#4
  | .xorReg x y => encodeXYN 0x8#4 x y 0x3#4
  | .addReg x y => encodeXYN 0x8#4 x y 0x4#4
  | .sub x y => encodeXYN 0x8#4 x y 0x5#4
  | .shr x => encodeXYN 0x8#4 x 0x0#4 0x6#4
  | .subn x y => encodeXYN 0x8#4 x y 0x7#4
  | .shl x => encodeXYN 0x8#4 x 0x0#4 0xE#4
  | .sneReg x y => encodeXYN 0x9#4 x y 0x0#4
  | .ldI nnn => encodeA 0xA#4 nnn
  | .jpV0 nnn => encodeA 0xB#4 nnn
  | .rnd x nn => encodeXNN 0xC#4 x nn
  | .drw x y n => encodeXYN 0xD#4 x y n
  | .skp x => encodeXNN 0xE#4 x 0x9E#8
  | .sknp x => encodeXNN 0xE#4 x 0xA1#8
  | .ldVxDt x => encodeXNN 0xF#4 x 0x07#8
  | .ldVxKey x => encodeXNN 0xF#4 x 0x0A#8
  | .ldDtVx x => encodeXNN 0xF#4 x 0x15#8
  | .ldStVx x => encodeXNN 0xF#4 x 0x18#8
  | .addI x => encodeXNN 0xF#4 x 0x1E#8
  | .ldF x => encodeXNN 0xF#4 x 0x29#8
  | .ldB x => encodeXNN 0xF#4 x 0x33#8
  | .dump x => encodeXNN 0xF#4 x 0x55#8
  | .load x => encodeXNN 0xF#4 x 0x65#8

/-- The two bytes of an instruction, in memory order. -/
def encodeBytes (i : Instr) : List Byte := [wordHi (encode i), wordLo (encode i)]

/-! ### The opcode table (R75), as the spec prints it -/

/-- A row: the mnemonic and the exact test `w AND mask = value`. -/
structure Row where
  mnemonic : String
  value : Word
  mask : Word
  deriving DecidableEq, Repr

/-- The rows of groups 0 to 7. -/
def opcodeRowsLow : List Row :=
  [⟨"CLS", 0x00E0#16, 0xF0FF#16⟩, ⟨"RET", 0x00EE#16, 0xF0FF#16⟩, ⟨"JP_NNN", 0x1000#16, 0xF000#16⟩,
   ⟨"CALL_NNN", 0x2000#16, 0xF000#16⟩, ⟨"SE_Vx__NN", 0x3000#16, 0xF000#16⟩, ⟨"SNE_Vx__NN", 0x4000#16, 0xF000#16⟩,
   ⟨"SE_Vx__Vy", 0x5000#16, 0xF000#16⟩, ⟨"LD_Vx__NN", 0x6000#16, 0xF000#16⟩, ⟨"ADD_Vx__NN", 0x7000#16, 0xF000#16⟩]

/-- The rows of group 8. -/
def opcodeRowsAlu : List Row :=
  [⟨"LD_Vx__Vy", 0x8000#16, 0xF00F#16⟩, ⟨"OR_Vx__Vy", 0x8001#16, 0xF00F#16⟩, ⟨"AND_Vx__Vy", 0x8002#16, 0xF00F#16⟩,
   ⟨"XOR_Vx__Vy", 0x8003#16, 0xF00F#16⟩, ⟨"ADD_Vx__Vy", 0x8004#16, 0xF00F#16⟩, ⟨"SUB_Vx__Vy", 0x8005#16, 0xF00F#16⟩,
   ⟨"SHR_Vx", 0x8006#16, 0xF00F#16⟩, ⟨"SUBN_Vx__Vy", 0x8007#16, 0xF00F#16⟩, ⟨"SHL_Vx", 0x800E#16, 0xF00F#16⟩]

/-- The rows of groups 9 to E. -/
def opcodeRowsHigh : List Row :=
  [⟨"SNE_Vx__Vy", 0x9000#16, 0xF000#16⟩, ⟨"LD_I__NNN", 0xA000#16, 0xF000#16⟩, ⟨"JP_V0__NNN", 0xB000#16, 0xF000#16⟩,
   ⟨"RND_Vx__NN", 0xC000#16, 0xF000#16⟩, ⟨"DRW_Vx__Vy__N", 0xD000#16, 0xF000#16⟩, ⟨"SKP_Vx", 0xE09E#16, 0xF0FF#16⟩,
   ⟨"SKNP_Vx", 0xE0A1#16, 0xF0FF#16⟩]

/-- The rows of group F. -/
def opcodeRowsF : List Row :=
  [⟨"LD_Vx__DT", 0xF007#16, 0xF0FF#16⟩, ⟨"LD_Vx__K", 0xF00A#16, 0xF0FF#16⟩, ⟨"LD_DT__Vx", 0xF015#16, 0xF0FF#16⟩,
   ⟨"LD_ST__Vx", 0xF018#16, 0xF0FF#16⟩, ⟨"ADD_I__Vx", 0xF01E#16, 0xF0FF#16⟩, ⟨"LD_F__Vx", 0xF029#16, 0xF0FF#16⟩,
   ⟨"LD_B__Vx", 0xF033#16, 0xF0FF#16⟩, ⟨"LD__I___Vx", 0xF055#16, 0xF0FF#16⟩, ⟨"LD_Vx___I", 0xF065#16, 0xF0FF#16⟩]

/-- The 34 rows in the table's order. -/
def opcodeTable : List Row := opcodeRowsLow ++ opcodeRowsAlu ++ opcodeRowsHigh ++ opcodeRowsF

/-- The row's test on a word. -/
def Row.matches (r : Row) (w : Word) : Bool := w &&& r.mask == r.value

/-- The bits of an instruction's word that decoding looks at or reads: all but the ignored ones of R77. -/
def significantMask : Instr → Word
  | .cls | .ret => 0xF0FF#16
  | .seReg _ _ | .sneReg _ _ => 0xFFF0#16
  | .shr _ | .shl _ => 0xFF0F#16
  | .jp _ | .call _ | .ldI _ | .jpV0 _ => 0xFFFF#16
  | .seImm _ _ | .sneImm _ _ | .ldImm _ _ | .addImm _ _ | .rnd _ _ => 0xFFFF#16
  | .ldReg _ _ | .orReg _ _ | .andReg _ _ | .xorReg _ _ | .addReg _ _ | .sub _ _ | .subn _ _ => 0xFFFF#16
  | .drw _ _ _ | .skp _ | .sknp _ => 0xFFFF#16
  | .ldVxDt _ | .ldVxKey _ | .ldDtVx _ | .ldStVx _ | .addI _ | .ldF _ | .ldB _ | .dump _ | .load _ => 0xFFFF#16

/-! ### The table's numbering -/

/-- The word of an instruction whose bits, numbered as spec/opcode_table.json numbers them, are the low `nbits` of `w`;
the bits above `nbits` are 0. One instruction is one word, so the table's bit 0 is bit 0 of that word. -/
def tableWord (nbits w : Nat) : Word := BitVec.ofNat 16 (w % 2 ^ nbits)

/-- The instruction the decoder reads from that word's two bytes, laid out as memory holds them. -/
def decodeTableWord (nbits w : Nat) : Option Instr :=
  match decodeBytes [wordHi (tableWord nbits w), wordLo (tableWord nbits w)] with
  | .ok (i, _) => some i
  | .error _ => none

end Sys2Proof
end

