-- ==== Sys2Proof/Machine/Fetch.lean ====
section
/-! DEFINITION. The fetch phase of a step, the no-op of an unknown word, and the step around an instruction's meaning
(spec/40_fetch_decode_execute.md R90, R94). -/

namespace Sys2Proof.Machine

/-- The word at PC: the byte at PC is bits 15:8, the byte at PC + 1 bits 7:0 (R90; spec/20_memory.md R52, R53). Any PC will
do, odd or beyond 0xFFF (R55). -/
def fetchWord (s : State) : Word := wordOfBytes (memRead s.mem s.pc.toNat) (memRead s.mem (s.pc.toNat + 1))

/-- What executes when the word is unknown: nothing after the fetch phase (R94). -/
def execUnknown (s : State) : Result := .next s

/-- One Step, given what executes a defined instruction: fetch, PC + 2, decode, execute exactly one instruction; an unknown
word executes as a no-op (R90, R92, R94). -/
def runFetched (execute : Instr → State → Result) (s : State) : Result :=
  match decodeWord (fetchWord s) with
  | .ok i => execute i s.advance
  | .error _ => execUnknown s.advance

/-- A word placed where the next step fetches. -/
def State.placeWord (s : State) (w : Word) : State := s.writeMem (memWriteBytes s.mem s.pc.toNat [wordHi w, wordLo w])

end Sys2Proof.Machine
end

