-- ==== Sys2Proof/Machine/IndexMemory.lean ====
section
/-! DEFINITION. The index register and the instructions that move data through it (spec/43_index_and_memory.md). -/

namespace Sys2Proof.Machine

/-- LD I, NNN (R141). -/
def execLdI (nnn : Addr) (s : State) : Result := .next (s.writeI (zextAddr nnn))

/-- ADD I, Vx (R142): modulo 65536, no flag. -/
def execAddI (x : RegIdx) (s : State) : Result := .next (s.writeI (s.i + zextByte (s.readV x)))

/-- LD F, Vx (R143): no masking. -/
def execLdF (x : RegIdx) (s : State) : Result := .next (s.writeI (glyphAddr (s.readV x)))

/-- LD B, Vx (R144): three bytes from I on; I stays. -/
def execLdB (x : RegIdx) (s : State) : Result :=
  .next (s.writeMem (memWriteBytes s.mem (dataAddr s.i 0) (bcdDigits (s.readV x))))

/-- I moved past the bytes a dump or load with field X copied (R145, R146). -/
def State.advanceIndex (s : State) (x : RegIdx) : State := s.writeI (s.i + BitVec.ofNat 16 (rangeCount x))

/-- LD [I], Vx, the register dump (R145). -/
def execDump (x : RegIdx) (s : State) : Result :=
  .next ((s.writeMem (memWriteBytes s.mem (dataAddr s.i 0) (s.readVs (rangeCount x)))).advanceIndex x)

/-- LD Vx, [I], the register load (R146). -/
def execLoad (x : RegIdx) (s : State) : Result :=
  .next ((s.writeVs 0 (memReadBytes s.mem (dataAddr s.i 0) (rangeCount x))).advanceIndex x)

end Sys2Proof.Machine
end

