-- ==== Sys2Proof/Machine/Keypad.lean ====
section
/-! DEFINITION. The keypad and timer instructions (spec/45_keypad_and_timers.md). -/

namespace Sys2Proof.Machine

/-- SKP Vx (R170). -/
def execSkp (x : RegIdx) (s : State) : Result := .next (s.skipIf (s.readKey (keyIndex (s.readV x))))

/-- SKNP Vx (R171). -/
def execSknp (x : RegIdx) (s : State) : Result := .next (s.skipIf (!s.readKey (keyIndex (s.readV x))))

/-- The least pressed key index, if any key is pressed (R172). -/
def State.lowestKey (s : State) : Option Nat := (List.range 16).find? (fun k => s.readKey (BitVec.ofNat 4 k))

/-- LD Vx, K (R172): the lowest pressed key's index, or PC back to this word with nothing else changed. -/
def execLdVxKey (x : RegIdx) (s : State) : Result :=
  match s.lowestKey with
  | some k => .next (s.writeV x (BitVec.ofNat 8 k))
  | none => .next s.rewind

/-- LD Vx, DT (R173). -/
def execLdVxDt (x : RegIdx) (s : State) : Result := .next (s.writeV x s.dt)

/-- LD DT, Vx (R174). -/
def execLdDtVx (x : RegIdx) (s : State) : Result := .next (s.writeDT (s.readV x))

/-- LD ST, Vx (R175). -/
def execLdStVx (x : RegIdx) (s : State) : Result := .next (s.writeST (s.readV x))

end Sys2Proof.Machine
end

