-- ==== Sys2Proof/Machine/Step.lean ====
section
/-! DEFINITION. The operation Step (spec/40_fetch_decode_execute.md R90): fetch, advance PC by 2, decode, execute exactly one
instruction. -/

namespace Sys2Proof.Machine

/-- Step, with the parameters at their defaults; `stepWith` takes them as an argument. -/
def step (s : State) : Host.Outcome State Fault Refusal := runFetched exec s

/-- The state with the instruction whose bits the opcode table numbers as `w` stored where the next step fetches (log entry
19). -/
def State.withFetchWord (s : State) (nbits w : Nat) : State := s.placeWord (tableWord nbits w)

end Sys2Proof.Machine
end

