-- ==== Sys2Proof/Machine/Accessors.lean ====
section
/-! DEFINITION. What the outside may read between operations (spec/60_exceptions.md R209 to R211). Each is a function of the
state and returns no state, so it changes nothing. PC, I, DT and ST are read as the fields they are. -/

namespace Sys2Proof.Machine

/-- The registers V[0] to V[15] in order (R209). -/
def State.registers (s : State) : List Byte := s.readVs 16

/-- The stack snapshot, oldest entry first; its length is the depth (R209). -/
def State.stackSnapshot (s : State) : List Word := s.stack.reverse

/-- depth(STACK) (spec/10_state.md R24). -/
def State.depth (s : State) : Nat := s.stack.length

/-- The key flags KEY[0] to KEY[15] in order (R209). -/
def State.keys (s : State) : List Bool := s.key.toList

/-- sound_on: ST is not 0 (R210). -/
def State.soundOn (s : State) : Bool := s.st != 0x00#8

/-- The framebuffer snapshot, row-major: index y * 64 + x (R211). -/
def State.framebufferSnapshot (s : State) : List Bool := (s.fb.toList.map Vector.toList).flatten

/-- The optional memory dump: the byte at an address (R209; log entry 25). -/
def State.byteAt (s : State) (a : Nat) : Byte := memRead s.mem a

end Sys2Proof.Machine
end

