-- ==== Sys2Proof/Machine/Params.lean ====
section
/-! DEFINITION. The three parameters of the core as an argument (spec/00_scope.md R5), their defaults, and the memory that
Reset leaves under a given FONT_ROM (spec/70_reset_and_hazards.md R230). -/

namespace Sys2Proof.Machine

/-- What R5 calls a parameter; everything else in its table is fixed. -/
structure Params where
  /-- STACK_DEPTH, `none` for unbounded (spec/10_state.md R24; decision D5; log entry 4). -/
  stackDepth : Option Nat
  /-- MAX_PROGRAM_LEN (spec/70_reset_and_hazards.md R233; decision D15; log entry 6). That it may be any number, beyond the
  3584 bytes that fit, is the model's own choice (log entry 34). -/
  maxProgramLen : Nat
  /-- FONT_ROM, FONT_SIZE = 80 bytes (spec/10_state.md R29; decision D12; log entry 5). -/
  fontRom : Vector Byte 80
  deriving DecidableEq, Repr

/-- The default FONT_ROM as the 80 bytes it is. -/
def fontRomDefault : Vector Byte 80 := Vector.ofFn (fun j => fontRom.getD j.val 0x00#8)

/-- The defaults of R5; `step`, `perform` and `runOps` are the core at these. -/
def Params.default : Params := ⟨Config.stackDepth, Config.maxProgramLen, fontRomDefault⟩

/-- Memory after Reset under a FONT_ROM: its bytes at 0x000 to 0x04F, zero above (R230). Zero is what an unlisted address
reads as there, so only bytes that differ from the default font are listed (log entry 33). -/
def resetMemory (font : Vector Byte 80) : Memory := memWriteBytes [] 0 font.toList

end Sys2Proof.Machine
end

