-- ==== Sys2Proof/Machine/StepWith.lean ====
section
/-! DEFINITION. The operation Step under given parameters (spec/00_scope.md R5; spec/40_fetch_decode_execute.md R90). -/

namespace Sys2Proof.Machine

/-- An instruction under given parameters. CALL is the one whose rule reads one, STACK_DEPTH
(spec/41_control_flow.md R102; spec/60_exceptions.md R202). -/
def execWith (p : Params) (i : Instr) (s : State) : Result :=
  match i with
  | .call nnn => execCallWith p.stackDepth nnn s
  | .cls | .ret | .jp _ | .seImm _ _ | .sneImm _ _ | .seReg _ _ | .sneReg _ _ | .ldI _ | .jpV0 _ => exec i s
  | .ldImm _ _ | .addImm _ _ | .ldReg _ _ | .orReg _ _ | .andReg _ _ | .xorReg _ _ => exec i s
  | .addReg _ _ | .sub _ _ | .shr _ | .subn _ _ | .shl _ | .rnd _ _ | .drw _ _ _ => exec i s
  | .skp _ | .sknp _ | .ldVxDt _ | .ldVxKey _ | .ldDtVx _ | .ldStVx _ => exec i s
  | .addI _ | .ldF _ | .ldB _ | .dump _ | .load _ => exec i s

/-- Step under given parameters. -/
def stepWith (p : Params) (s : State) : Result := runFetched (execWith p) s

end Sys2Proof.Machine
end

