-- ==== Sys2Proof/WellFormed.lean ====
section
/-! DEFINITION. The well-formedness checks. An instruction's operands have the exact width of their fields
(spec/30_encoding.md R71, R73), so an operand out of range cannot be written down and the check on instructions has nothing
to refuse (log entry 30). What the outside hands to the core is wider than its port, and is checked here. -/

namespace Sys2Proof

/-- Every term of `Instr` is well formed: each field of the word can carry each value of the operand's type, V[15] and
height 0 included (spec/10_state.md R20; spec/44_display.md R162; log entry 30). -/
def Instr.wf : Instr → Bool := fun _ => true

/-- A key index that the 4-bit port can carry: 0 to 15 (spec/60_exceptions.md R207; decision D17). -/
def wfKeyIndex (k : Nat) : Bool := decide (k < 16)

/-- An image that Load accepts under the bound `maxLen`: not empty and not longer than the bound
(spec/70_reset_and_hazards.md R233, R234). -/
def wfImage (maxLen : Nat) (bytes : List Byte) : Bool := decide (0 < bytes.length ∧ bytes.length ≤ maxLen)

end Sys2Proof
end

