-- ==== Sys2Proof/Machine/Operations.lean ====
section
/-! DEFINITION. The operations of the outside world (spec/00_scope.md R10; spec/60_exceptions.md R204 to R208;
spec/70_reset_and_hazards.md R230 to R235) and the schedules of operations (R205). Each operation is one atomic transition. What
ends in `With` takes the parameters of R5 as an argument; the name without it is the same at their defaults. -/

namespace Sys2Proof.Machine

/-- The state after power-on under given parameters (R230, R231): `State.reset` is this at the defaults. -/
def State.resetWith (p : Params) : State := { State.reset with mem := resetMemory p.fontRom }

/-- Reset under given parameters (R230): the state of R33 whatever the state was. The count of consumed random bytes is no
state of the hardware and goes on, so that bytes presented after a Reset are fresh ones (log entry 3). -/
def opResetWith (p : Params) (s : State) : State := { State.resetWith p with draws := s.draws }

/-- Reset (R230). -/
def opReset (s : State) : State := opResetWith Params.default s

/-- PROG_BASE (R233). -/
def progBase : Nat := 0x200

/-- What Load returns to the host: whether it succeeded, and the state (R233, R234). -/
structure LoadResult where
  success : Bool
  state : State
  deriving DecidableEq, Repr

/-- Load under a given MAX_PROGRAM_LEN: the bytes go to 0x200 upward and nothing else changes; a refused image changes
nothing and is a result, not a fault (R233, R234). The spec names no bound but 3583 (and 3584 in conflict C2), under which no
write of Load wraps. DESIGN CHOICE (log entry 34): any bound is taken here, and under one above 3584 an image longer than 3584
bytes wraps past 0xFFF into 0x000, as every access does. -/
def opLoadWith (maxLen : Nat) (bytes : List Byte) (s : State) : LoadResult :=
  if wfImage maxLen bytes then ⟨true, s.writeMem (memWriteBytes s.mem progBase bytes)⟩ else ⟨false, s⟩

/-- Load (R233). -/
def opLoad (bytes : List Byte) (s : State) : LoadResult := opLoadWith Config.maxProgramLen bytes s

/-- One timer's part of Tick: down by 1, floored at 0 (spec/60_exceptions.md R206). -/
def countDown (b : Byte) : Byte := if b = 0x00#8 then b else b - 0x01#8

/-- Tick (R206): both timers, nothing else. -/
def opTick (s : State) : State := (s.writeDT (countDown s.dt)).writeST (countDown s.st)

/-- KeySet(k) (R207); an index the port cannot carry is refused (decision D17). -/
def opKeySet (k : Nat) (s : State) : Result :=
  if wfKeyIndex k then .next (s.writeKey (BitVec.ofNat 4 k) true) else .refused (.keyIndexTooWide k)

/-- KeyClear(k) (R208). -/
def opKeyClear (k : Nat) (s : State) : Result :=
  if wfKeyIndex k then .next (s.writeKey (BitVec.ofNat 4 k) false) else .refused (.keyIndexTooWide k)

/-- The six operations that change state (R10; conflict C9). -/
inductive Op where
  | reset
  | load (bytes : List Byte)
  | step
  | tick
  | keySet (k : Nat)
  | keyClear (k : Nat)
  deriving DecidableEq, Repr

/-- One operation on a state that has not faulted, under given parameters. -/
def performWith (p : Params) : Op → State → Result
  | .reset, s => .next (opResetWith p s)
  | .load bytes, s => .next (opLoadWith p.maxProgramLen bytes s).state
  | .step, s => stepWith p s
  | .tick, s => .next (opTick s)
  | .keySet k, s => opKeySet k s
  | .keyClear k, s => opKeyClear k s

/-- One operation on a state that has not faulted. -/
def perform (op : Op) (s : State) : Result := performWith Params.default op s

/-- A core between operations: running, or faulted with the fault recorded. After a fault nothing of the state may be read,
so none is kept but the count of consumed random bytes (spec/60_exceptions.md R201; spec/10_state.md R31; log entry 21). -/
inductive Condition where
  | running (s : State)
  | faulted (f : Fault) (draws : Nat)
  deriving DecidableEq, Repr

/-- One operation on a core in either condition, under given parameters: after a fault only Reset is defined (R201), and
any other operation is refused by name, which gives it no result (DESIGN CHOICE, log entry 32). -/
def applyOpWith (p : Params) (op : Op) : Condition → Except Refusal Condition
  | .running s =>
    match performWith p op s with
    | .next t => .ok (.running t)
    | .fault f => .ok (.faulted f s.draws)
    | .refused r => .error r
  | .faulted _ draws =>
    match op with
    | .reset => .ok (.running (opResetWith p { State.reset with draws := draws }))
    | _ => .error .afterFault

/-- One operation on a core in either condition. -/
def applyOp (op : Op) (c : Condition) : Except Refusal Condition := applyOpWith Params.default op c

/-- A schedule under given parameters: operations of all agents in one total order, any order allowed (R205). DESIGN CHOICE
(log entry 32): R201 says that an operation between a fault and a Reset is not defined, and not what a schedule that issues
one comes to. Here the whole schedule has no result: it ends in that refusal, the recorded fault is dropped, and what stands
later in it, a Reset included, is not reached. So it is for a key index that is refused (log entry 22). -/
def runOpsWith (p : Params) : List Op → Condition → Except Refusal Condition
  | [], c => .ok c
  | op :: ops, c =>
    match applyOpWith p op c with
    | .ok c' => runOpsWith p ops c'
    | .error r => .error r

/-- A schedule. -/
def runOps (ops : List Op) (c : Condition) : Except Refusal Condition := runOpsWith Params.default ops c

end Sys2Proof.Machine
end

