-- ==== Sys2Proof/Safety.lean ====
section
/-! DEFINITION. The terms in which claims are stated: the invariant, a safe run, what an instruction may write, where PC goes,
and which states a program cannot tell apart. Each is written from the rules, not from the meanings. -/

namespace Sys2Proof.Safety

open Sys2Proof.Machine

/-- The invariant of the model: memory has its canonical form. Every state the machine reaches has it. -/
def StateInv (s : State) : Prop := Memory.wf s.mem

/-- The invariant of a core in either condition; a faulted core keeps no state. -/
def Condition.StateInv : Condition → Prop
  | .running s => Safety.StateInv s
  | .faulted _ _ => True

/-- A safe run under given parameters: the schedule of operations meets no fault and nothing is refused (spec/60_exceptions.md R201: no claim may
pass through a fault). -/
def runsSafely (p : Params) (ops : List Op) (s : State) : Prop := ∃ t, runOpsWith p ops (.running s) = .ok (.running t)

/-! ### Frames -/

/-- From `s` to `t` the only effect is V[x] <- b. -/
def WritesV (s t : State) (x : RegIdx) (b : Byte) : Prop :=
  t = { s with v := t.v } ∧ t.readV x = b ∧ ∀ r, r ≠ x → t.readV r = s.readV r

/-- From `s` to `t` the only effects are VF <- flag and then V[x] <- result: with x = 15 the result stays
(spec/40_fetch_decode_execute.md R91). -/
def WritesFlagAndV (s t : State) (x : RegIdx) (flag result : Byte) : Prop :=
  t = { s with v := t.v } ∧ t.readV x = result ∧ (x ≠ flagReg → t.readV flagReg = flag) ∧
    ∀ r, r ≠ x → r ≠ flagReg → t.readV r = s.readV r

/-- The V registers an instruction may write (spec/10_state.md R20, R21). -/
def writtenRegs : Instr → List RegIdx
  | .ldImm x _ | .addImm x _ | .ldReg x _ | .orReg x _ | .andReg x _ | .xorReg x _ => [x]
  | .rnd x _ | .ldVxDt x | .ldVxKey x => [x]
  | .addReg x _ | .sub x _ | .shr x | .subn x _ | .shl x => [flagReg, x]
  | .drw _ _ _ => [flagReg]
  | .load x => (List.range (x.toNat + 1)).map (BitVec.ofNat 4)
  | .cls | .ret | .jp _ | .call _ | .seImm _ _ | .sneImm _ _ | .seReg _ _ | .sneReg _ _ | .ldI _ | .jpV0 _ => []
  | .skp _ | .sknp _ | .ldDtVx _ | .ldStVx _ | .addI _ | .ldF _ | .ldB _ | .dump _ => []

/-- How many bytes an instruction stores, from I on (spec/20_memory.md R56). -/
def storedCount : Instr → Nat
  | .ldB _ => 3
  | .dump x => x.toNat + 1
  | .cls | .ret | .jp _ | .call _ | .seImm _ _ | .sneImm _ _ | .seReg _ _ | .sneReg _ _ | .ldI _ | .jpV0 _ => 0
  | .ldImm _ _ | .addImm _ _ | .ldReg _ _ | .orReg _ _ | .andReg _ _ | .xorReg _ _ => 0
  | .addReg _ _ | .sub _ _ | .shr _ | .subn _ _ | .shl _ | .rnd _ _ | .drw _ _ _ => 0
  | .skp _ | .sknp _ | .ldVxDt _ | .ldVxKey _ | .ldDtVx _ | .ldStVx _ | .addI _ | .ldF _ | .load _ => 0

/-- The instruction writes VF as a side effect and its result does not land on VF (spec/10_state.md R21). -/
def leavesFlag : Instr → Bool
  | .addReg x _ | .sub x _ | .shr x | .subn x _ | .shl x => x != flagReg
  | .drw _ _ _ => true
  | _ => false

/-! ### The program counter -/

/-- PC at the end of a Step that began in `s`, with P the value of PC there and P2 = P + 2 (the table of
spec/40_fetch_decode_execute.md R93). RET is tabled for a stack with an entry. -/
def pcAfter (s : State) : Except Reject Instr → Word
  | .ok (.jp nnn) => BitVec.ofNat 16 nnn.toNat
  | .ok (.call nnn) => BitVec.ofNat 16 nnn.toNat
  | .ok .ret => s.stack.headD (s.pc + 2#16)
  | .ok (.jpV0 nnn) => BitVec.ofNat 16 ((s.readV 0#4).toNat + nnn.toNat)
  | .ok (.seImm x nn) => if s.readV x = nn then s.pc + 4#16 else s.pc + 2#16
  | .ok (.sneImm x nn) => if s.readV x = nn then s.pc + 2#16 else s.pc + 4#16
  | .ok (.seReg x y) => if s.readV x = s.readV y then s.pc + 4#16 else s.pc + 2#16
  | .ok (.sneReg x y) => if s.readV x = s.readV y then s.pc + 2#16 else s.pc + 4#16
  | .ok (.skp x) => if s.readKey (BitVec.ofNat 4 ((s.readV x).toNat % 16)) then s.pc + 4#16 else s.pc + 2#16
  | .ok (.sknp x) => if s.readKey (BitVec.ofNat 4 ((s.readV x).toNat % 16)) then s.pc + 2#16 else s.pc + 4#16
  | .ok (.ldVxKey _) => if ∃ k : Nibble, s.readKey k = true then s.pc + 2#16 else s.pc
  | _ => s.pc + 2#16

/-! ### Unknown words, as rule R76 lists them -/

/-- The unknown words by group and sub-opcode (spec/30_encoding.md R76), on the number the word is. -/
def isUnknown (w : Word) : Prop :=
  (w.toNat / 4096 = 0x0 ∧ w.toNat % 256 ∉ [0xE0, 0xEE]) ∨
  (w.toNat / 4096 = 0x8 ∧ w.toNat % 16 ∈ [0x8, 0x9, 0xA, 0xB, 0xC, 0xD, 0xF]) ∨
  (w.toNat / 4096 = 0xE ∧ w.toNat % 256 ∉ [0x9E, 0xA1]) ∨
  (w.toNat / 4096 = 0xF ∧ w.toNat % 256 ∉ [0x07, 0x0A, 0x15, 0x18, 0x1E, 0x29, 0x33, 0x55, 0x65])

/-! ### Sprites -/

/-- Some set sprite bit falls on FB[y][x] when `n` rows are drawn from I at (vx, vy) (spec/44_display.md R160, R162): sprite
row `r` is the byte at I + r and goes to row (vy + r) mod 32; sprite column `c` is bit 7 - c and goes to column
(vx + c) mod 64. -/
def spriteCovers (s : State) (vx vy : Byte) (n : Nibble) (y : Fin 32) (x : Fin 64) : Prop :=
  ∃ r c : Nat, r < n.toNat ∧ c < 8 ∧ (s.mem.read ((s.i.toNat + r) % 4096)).getLsbD (7 - c) = true ∧
    (vy.toNat + r) % 32 = y.val ∧ (vx.toNat + c) % 64 = x.val

/-! ### States that cannot be told apart -/

/-- An outcome with its next state changed. -/
def mapNext (f : State → State) : Result → Result
  | .next t => .next (f t)
  | .fault r => .fault r
  | .refused r => .refused r

/-- Two states that agree but for the bits of I above bit 11 (spec/10_state.md R22; conflict C3). -/
def sameButHighIndex (s t : State) : Prop := t = { s with i := t.i } ∧ s.i.toNat % 4096 = t.i.toNat % 4096

/-- The same for a core in either condition. -/
def Condition.sameButHighIndex : Condition → Condition → Prop
  | .running s, .running t => Safety.sameButHighIndex s t
  | .faulted f n, .faulted g m => f = g ∧ n = m
  | _, _ => False

end Sys2Proof.Safety
end

