-- ==== Sys2Proof/Certificates/Slice0/Obligations.lean ====
section
/-! DEFINITION. The statements for the provers, each naming the rule of spec/ it formalises. `exec` takes the state after the
fetch phase, so `s.pc` in a statement about `exec` is the fetched word's address plus 2. -/

open Sys2Proof Sys2Proof.Machine Sys2Proof.Safety

/-! ### Encoding -/

/-- Words written out from the encodings decode to what they stand for, ignored bits and an unknown word among them
(spec/30_encoding.md R75, R76, R77; the opcode numbers are decision D11's, the ignored bits D10's and D26's: log entries 1, 2). -/
def Obligations.SpecWordsDecode : Prop :=
  decodeWord 0x0AE0#16 = .ok .cls ∧ decodeWord 0x07EE#16 = .ok .ret ∧ decodeWord 0x1ABC#16 = .ok (.jp 0xABC#12) ∧
  decodeWord 0x5127#16 = .ok (.seReg 1#4 2#4) ∧ decodeWord 0x8AB5#16 = .ok (.sub 0xA#4 0xB#4) ∧
  decodeWord 0x8FFE#16 = .ok (.shl 0xF#4) ∧ decodeWord 0xC30F#16 = .ok (.rnd 3#4 0x0F#8) ∧
  decodeWord 0xD012#16 = .ok (.drw 0#4 1#4 2#4) ∧ decodeWord 0xE2A1#16 = .ok (.sknp 2#4) ∧
  decodeWord 0xF265#16 = .ok (.load 2#4) ∧ decodeWord 0x0000#16 = .error (.group0 0x00#8)

/-- The six fields are the numbers that rule R71 (spec/30_encoding.md) cuts out of the word, and NN = Y ∥ N,
NNN = X ∥ Y ∥ N. -/
def Obligations.FieldsOfTheWord : Prop :=
  ∀ w : Word,
    (fieldOp w).toNat = w.toNat / 4096 ∧ (fieldX w).toNat = w.toNat / 256 % 16 ∧ (fieldY w).toNat = w.toNat / 16 % 16 ∧
    (fieldN w).toNat = w.toNat % 16 ∧ (fieldNN w).toNat = w.toNat % 256 ∧ (fieldNNN w).toNat = w.toNat % 4096 ∧
    fieldNN w = fieldY w ++ fieldN w ∧ fieldNNN w = fieldX w ++ (fieldY w ++ fieldN w : Byte)

/-- Decoding what the encoder writes gives the instruction back, as a word and at the head of any byte list
(spec/30_encoding.md R70 to R75, R77). -/
def Obligations.DecodeOfEncode : Prop :=
  ∀ (i : Instr) (rest : List Byte), i.wf = true →
    decodeWord (encode i) = .ok i ∧ decodeBytes (encodeBytes i ++ rest) = .ok (i, rest)

/-- Encoding what a word decodes to gives the word with its ignored bits 0 (spec/30_encoding.md R77; decision D22, log
entry 31), so no other bit is dropped. -/
def Obligations.EncodeOfDecode : Prop :=
  ∀ (w : Word) (i : Instr), decodeWord w = .ok i → encode i = w &&& significantMask i

/-- The decoder is the opcode table: a word decodes to an instruction of a row's mnemonic exactly when it passes that row's
test (spec/30_encoding.md R75). -/
def Obligations.DecodeFollowsTable : Prop :=
  ∀ (w : Word) (r : Row), r ∈ opcodeTable →
    (r.matches w = true ↔ ∃ i, decodeWord w = .ok i ∧ i.mnemonic = r.mnemonic)

/-- No two rows of the opcode table match the same word (spec/30_encoding.md R75). -/
def Obligations.TableRowsDisjoint : Prop :=
  ∀ (w : Word) (r q : Row), r ∈ opcodeTable → q ∈ opcodeTable → r.matches w = true → q.matches w = true → r = q

/-- A word is rejected exactly when rule R76 (spec/30_encoding.md) lists it as unknown; the list
follows from the opcode numbers (decision D11, log entry 1). -/
def Obligations.RejectedWordsAreTheUnknownOnes : Prop :=
  ∀ w : Word, (∃ r, decodeWord w = .error r) ↔ isUnknown w

/-! ### The step -/

/-- The fetched word is big-endian and both its addresses are reduced modulo 4096 (spec/20_memory.md R52, R53;
spec/40_fetch_decode_execute.md R90; decision D1, log entry 7). -/
def Obligations.FetchIsBigEndianAndWraps : Prop :=
  ∀ s : State, (fetchWord s).toNat = 256 * (s.mem.read (s.pc.toNat % 4096)).toNat + (s.mem.read ((s.pc.toNat + 1) % 4096)).toNat

/-- When the word at PC decodes, the step is that instruction on the state with PC moved on by 2
(spec/40_fetch_decode_execute.md R90, R92; the wrap of PC is decision D2's, log entry 8). -/
def Obligations.StepRunsDecodedInstruction : Prop :=
  ∀ (s : State) (i : Instr), decodeWord (fetchWord s) = .ok i → i.wf = true → step s = exec i { s with pc := s.pc + 2#16 }

/-- An unknown word moves PC on by 2 and changes nothing else (spec/40_fetch_decode_execute.md R94, its words as
spec/30_encoding.md R76 lists them). The list rests on the opcode numbers (decision D11, log entry 1) and on which bits select
(decisions D10, D26, log entry 2); the wrap of PC modulo 65536 is decision D2's (log entry 8). -/
def Obligations.UnknownWordOnlyAdvancesPc : Prop :=
  ∀ s : State, isUnknown (fetchWord s) → step s = .next { s with pc := s.pc + 2#16 }

/-- The instruction the host places is the one the next step fetches (log entry 19), and nothing but its two bytes changes. -/
def Obligations.PlacedWordIsFetched : Prop :=
  ∀ (s : State) (w : Nat), StateInv s → w < 65536 →
    fetchWord (s.withFetchWord 16 w) = BitVec.ofNat 16 w ∧
    s.withFetchWord 16 w = { s with mem := (s.withFetchWord 16 w).mem } ∧
    ∀ a < 4096, a ≠ s.pc.toNat % 4096 → a ≠ (s.pc.toNat + 1) % 4096 →
      (s.withFetchWord 16 w).mem.read a = s.mem.read a

/-! ### Memory and the invariant -/

/-- Two canonical memories with the same 4096 bytes are the same data (spec/20_memory.md R50; log entry 18). -/
def Obligations.CanonicalMemoryIsItsBytes : Prop :=
  ∀ m n : Memory, m.wf → n.wf → (∀ a < 4096, m.read a = n.read a) → m = n

/-- The invariant, the canonical form of memory (the model's own, log entry 18), holds after reset. -/
def Obligations.ResetMeetsInvariant : Prop := StateInv State.reset

/-- Every step keeps the invariant, from every state that meets it: no store leaves the array (spec/20_memory.md R52) and equal
memories stay equal data (log entry 18). -/
def Obligations.StepKeepsInvariant : Prop :=
  ∀ s t : State, StateInv s → step s = .next t → StateInv t

/-- Every schedule of operations, of all agents in any order, keeps the invariant, whatever the parameters
(spec/60_exceptions.md R205; spec/00_scope.md R5; log entries 18, 33). A schedule that ends in a refusal has no result (log entry
32), and MAX_PROGRAM_LEN may be any number (log entry 34): both are the model's own choices. -/
def Obligations.SchedulesKeepInvariant : Prop :=
  ∀ (p : Params) (ops : List Op) (c d : Condition),
    Safety.Condition.StateInv c → runOpsWith p ops c = .ok d → Safety.Condition.StateInv d

/-! ### Rules of the whole machine -/

/-- A step stops only at RET with an empty stack, with the fault and the address that rule R202 (spec/60_exceptions.md) gives,
and nothing is ever refused; STACK_DEPTH is unbounded here, its default (log entry 4). -/
def Obligations.StepStopsOnlyAtEmptyReturn : Prop :=
  ∀ s : State,
    (∀ f, step s = .fault f ↔ decodeWord (fetchWord s) = .ok .ret ∧ s.stack = [] ∧ f = .stackUnderflow s.pc) ∧
    (∀ r, step s ≠ .refused r)

/-- PC at the end of every step is as the table of rule R93 (spec/40_fetch_decode_execute.md) says, the conditions of its skips
and of get key being those of spec/41_control_flow.md R105 to R108 and spec/45_keypad_and_timers.md R170 to R172. The key index
V[x] mod 16 is decision D9's (log entry 13), the wrap modulo 65536 decision D2's (log entry 8). -/
def Obligations.PcAfterStepFollowsTable : Prop :=
  ∀ s t : State, step s = .next t → t.pc = pcAfter s (decodeWord (fetchWord s))

/-- An instruction leaves every V register that its rule does not write (spec/42_alu.md R121 to R132; spec/43_index_and_memory.md
R146; spec/44_display.md R162; spec/45_keypad_and_timers.md R172, R173; the other rules write none). That X is the destination
of the register forms is decision D8's (log entry 12). -/
def Obligations.UnnamedRegistersUnchanged : Prop :=
  ∀ (i : Instr) (s t : State) (r : RegIdx), exec i s = .next t → r ∉ writtenRegs i → t.readV r = s.readV r

/-- An instruction leaves every byte of memory outside the ones it stores, which lie from I on (spec/20_memory.md R56, R57;
spec/43_index_and_memory.md R140). -/
def Obligations.BytesOutsideStoresUnchanged : Prop :=
  ∀ (i : Instr) (s t : State) (a : Nat), exec i s = .next t →
    (∀ j < storedCount i, a ≠ arrayAddr (dataAddr s.i j)) → t.mem.read a = s.mem.read a

/-- A step changes no key, changes DT only by LD DT, Vx and ST only by LD ST, Vx; in particular it never counts a timer down
(spec/10_state.md R25, R26; spec/40_fetch_decode_execute.md R92). -/
def Obligations.KeysAndTimersInStep : Prop :=
  ∀ s t : State, step s = .next t →
    t.key = s.key ∧
    (t.dt ≠ s.dt → ∃ x, decodeWord (fetchWord s) = .ok (.ldDtVx x)) ∧
    (t.st ≠ s.st → ∃ x, decodeWord (fetchWord s) = .ok (.ldStVx x))

/-- The framebuffer changes only by CLS, DRW and Reset (spec/44_display.md R163). -/
def Obligations.FramebufferChangers : Prop :=
  ∀ (op : Op) (s t : State), perform op s = .next t → t.fb ≠ s.fb →
    op = .reset ∨ (op = .step ∧ (decodeWord (fetchWord s) = .ok .cls ∨ ∃ x y n, decodeWord (fetchWord s) = .ok (.drw x y n)))

/-- The call stack changes only by CALL, which pushes one entry, by RET, which takes the newest, and by Reset
(spec/10_state.md R24). -/
def Obligations.StackChangers : Prop :=
  ∀ (op : Op) (s t : State), perform op s = .next t → t.stack ≠ s.stack →
    op = .reset ∨ (op = .step ∧
      ((∃ nnn, decodeWord (fetchWord s) = .ok (.call nnn) ∧ t.stack = (s.pc + 2#16) :: s.stack) ∨
       (decodeWord (fetchWord s) = .ok .ret ∧ s.stack = t.pc :: t.stack)))

/-- The index register changes only by LD I, ADD I, LD F, the register dump and load, and Reset (spec/10_state.md R22). -/
def Obligations.IndexChangers : Prop :=
  ∀ (op : Op) (s t : State), perform op s = .next t → t.i ≠ s.i →
    op = .reset ∨ (op = .step ∧
      ((∃ nnn, decodeWord (fetchWord s) = .ok (.ldI nnn)) ∨
       (∃ x, decodeWord (fetchWord s) = .ok (.addI x) ∨ decodeWord (fetchWord s) = .ok (.ldF x) ∨
         decodeWord (fetchWord s) = .ok (.dump x) ∨ decodeWord (fetchWord s) = .ok (.load x))))

/-- The flag that an instruction leaves in VF is 0 or 1, never another value (spec/42_alu.md R120; spec/10_state.md R21). -/
def Obligations.FlagIsZeroOrOne : Prop :=
  ∀ (i : Instr) (s t : State), exec i s = .next t → leavesFlag i = true →
    t.readV flagReg = 0x00#8 ∨ t.readV flagReg = 0x01#8

/-- The random input enters only RND: for every other instruction the outcome does not depend on which byte of the sequence is
next (spec/40_fetch_decode_execute.md R95; spec/60_exceptions.md R212). -/
def Obligations.OnlyRndReadsRandomInput : Prop :=
  ∀ (i : Instr) (s : State) (n : Nat), (∀ x nn, i ≠ .rnd x nn) →
    exec i { s with draws := n } = mapNext (fun t => { t with draws := n }) (exec i s)

/-- No instruction reads ST: a step from a state with another ST ends in the same state but for ST, and in the very same one
when it writes ST (spec/10_state.md R25). -/
def Obligations.NoInstructionReadsSoundTimer : Prop :=
  ∀ (s : State) (b : Byte),
    step { s with st := b } =
      mapNext (fun t => if ∃ x, decodeWord (fetchWord s) = .ok (.ldStVx x) then t else { t with st := b }) (step s)

/-- A program cannot tell a 16-bit I from a 12-bit one: under any schedule, cores that differ only above bit 11 of I stay so
(spec/10_state.md R22; conflict C3, decision D3, log entry 9). That a schedule without a result ends in a refusal is the model's
own choice (log entry 32). -/
def Obligations.HighIndexBitsUnobservable : Prop :=
  ∀ (ops : List Op) (c d : Condition), Safety.Condition.sameButHighIndex c d →
    match runOps ops c, runOps ops d with
    | .ok c', .ok d' => Safety.Condition.sameButHighIndex c' d'
    | .error r, .error q => r = q
    | _, _ => False

/-! ### Control flow -/

/-- JP NNN and JP V0, NNN set PC and nothing else, the sum of the second unreduced (spec/41_control_flow.md R101, R104). -/
def Obligations.JumpsSetPc : Prop :=
  (∀ (nnn : Addr) (s : State), exec (.jp nnn) s = .next { s with pc := BitVec.ofNat 16 nnn.toNat }) ∧
  (∀ (nnn : Addr) (s : State),
    exec (.jpV0 nnn) s = .next { s with pc := BitVec.ofNat 16 ((s.readV 0#4).toNat + nnn.toNat) } ∧
    (s.readV 0#4).toNat + nnn.toNat ≤ 0x10FE)

/-- CALL NNN pushes the advanced PC whole and jumps; under a finite STACK_DEPTH it faults exactly on a full stack, with the
address of the CALL word; with the default it never faults (spec/41_control_flow.md R102; spec/60_exceptions.md R202;
decision D5, log entry 4). -/
def Obligations.CallPushesOrOverflows : Prop :=
  (∀ (nnn : Addr) (s : State),
    exec (.call nnn) s = .next { s with stack := s.pc :: s.stack, pc := BitVec.ofNat 16 nnn.toNat }) ∧
  (∀ (depth : Option Nat) (nnn : Addr) (s : State),
    execCallWith depth nnn s =
      if depth = some s.stack.length then .fault (.stackOverflow (s.pc - 2#16))
      else .next { s with stack := s.pc :: s.stack, pc := BitVec.ofNat 16 nnn.toNat })

/-- RET takes the newest entry into PC, all 16 bits, and nothing else changes; on an empty stack it is the fault
StackUnderflow with the address of the RET word (spec/41_control_flow.md R103; decision D4, log entry 10). -/
def Obligations.RetPopsOrUnderflows : Prop :=
  (∀ (s : State) (w : Word) (rest : List Word), s.stack = w :: rest → exec .ret s = .next { s with stack := rest, pc := w }) ∧
  (∀ s : State, s.stack = [] → exec .ret s = .fault (.stackUnderflow (s.pc - 2#16)))

/-- Call then return: a step that executes CALL, and any later step that executes RET with the stack as CALL left it, bring PC
back to the address after the CALL word and the stack to what it was (spec/41_control_flow.md R103; conflict C6). -/
def Obligations.ReturnComesBackAfterCall : Prop :=
  ∀ (s u : State) (nnn : Addr), decodeWord (fetchWord s) = .ok (.call nnn) →
    ∃ t, step s = .next t ∧ t.pc = BitVec.ofNat 16 nnn.toNat ∧
      (u.stack = t.stack → decodeWord (fetchWord u) = .ok .ret →
        step u = .next { u with pc := s.pc + 2#16, stack := s.stack })

/-- The four skips on registers move PC on by 2 when their condition holds and do nothing else; SE and SNE are complements
(spec/41_control_flow.md R105 to R109; the wrap of PC is decision D2's, log entry 8). -/
def Obligations.RegisterSkips : Prop :=
  (∀ (x : RegIdx) (nn : Byte) (s : State),
    exec (.seImm x nn) s = .next { s with pc := if s.readV x = nn then s.pc + 2#16 else s.pc } ∧
    exec (.sneImm x nn) s = .next { s with pc := if s.readV x = nn then s.pc else s.pc + 2#16 }) ∧
  (∀ (x y : RegIdx) (s : State),
    exec (.seReg x y) s = .next { s with pc := if s.readV x = s.readV y then s.pc + 2#16 else s.pc } ∧
    exec (.sneReg x y) s = .next { s with pc := if s.readV x = s.readV y then s.pc else s.pc + 2#16 })

/-- SKP and SKNP skip on the key whose index is V[x] mod 16 and do nothing else (spec/45_keypad_and_timers.md R170, R171; the
reduction is decision D9's, log entry 13, the wrap of PC decision D2's, log entry 8). -/
def Obligations.KeySkips : Prop :=
  ∀ (x : RegIdx) (s : State),
    exec (.skp x) s =
      .next { s with pc := if s.readKey (BitVec.ofNat 4 ((s.readV x).toNat % 16)) then s.pc + 2#16 else s.pc } ∧
    exec (.sknp x) s =
      .next { s with pc := if s.readKey (BitVec.ofNat 4 ((s.readV x).toNat % 16)) then s.pc else s.pc + 2#16 }

/-! ### Arithmetic, logic, shifts, random -/

/-- LD Vx, NN and ADD Vx, NN write V[x] alone, the sum modulo 256; VF is untouched unless x is 15 (spec/42_alu.md R121,
R122). -/
def Obligations.ImmediateForms : Prop :=
  ∀ (x : RegIdx) (nn : Byte) (s : State),
    (∃ t, exec (.ldImm x nn) s = .next t ∧ WritesV s t x nn) ∧
    (∃ t, exec (.addImm x nn) s = .next t ∧ WritesV s t x (BitVec.ofNat 8 (((s.readV x).toNat + nn.toNat) % 256)))

/-- LD, OR, AND and XOR Vx, Vy write V[x] alone and leave VF (spec/42_alu.md R123 to R126; X as destination is decision D8's,
log entry 12). -/
def Obligations.MoveAndLogic : Prop :=
  ∀ (x y : RegIdx) (s : State),
    (∃ t, exec (.ldReg x y) s = .next t ∧ WritesV s t x (s.readV y)) ∧
    (∃ t, exec (.orReg x y) s = .next t ∧ WritesV s t x (BitVec.ofNat 8 ((s.readV x).toNat ||| (s.readV y).toNat))) ∧
    (∃ t, exec (.andReg x y) s = .next t ∧ WritesV s t x (BitVec.ofNat 8 ((s.readV x).toNat &&& (s.readV y).toNat))) ∧
    (∃ t, exec (.xorReg x y) s = .next t ∧ WritesV s t x (BitVec.ofNat 8 ((s.readV x).toNat ^^^ (s.readV y).toNat)))

/-- ADD Vx, Vy: VF is 1 exactly when the sum exceeds 255, then V[x] is the sum modulo 256 (spec/42_alu.md R127; with x = 15 the
sum stays, spec/40_fetch_decode_execute.md R91, decision D6, log entry 11). -/
def Obligations.AddRegisters : Prop :=
  ∀ (x y : RegIdx) (s : State), ∃ t, exec (.addReg x y) s = .next t ∧
    WritesFlagAndV s t x (if (s.readV x).toNat + (s.readV y).toNat > 255 then 0x01#8 else 0x00#8)
      (BitVec.ofNat 8 (((s.readV x).toNat + (s.readV y).toNat) % 256))

/-- SUB and SUBN: VF is 0 on a borrow, else 1, then V[x] is the difference modulo 256 (spec/42_alu.md R128, R130; with x = 15
the difference stays, R91, decision D6, log entry 11). -/
def Obligations.Subtractions : Prop :=
  ∀ (x y : RegIdx) (s : State),
    (∃ t, exec (.sub x y) s = .next t ∧
      WritesFlagAndV s t x (if (s.readV y).toNat > (s.readV x).toNat then 0x00#8 else 0x01#8)
        (BitVec.ofNat 8 ((256 + (s.readV x).toNat - (s.readV y).toNat) % 256))) ∧
    (∃ t, exec (.subn x y) s = .next t ∧
      WritesFlagAndV s t x (if (s.readV x).toNat > (s.readV y).toNat then 0x00#8 else 0x01#8)
        (BitVec.ofNat 8 ((256 + (s.readV y).toNat - (s.readV x).toNat) % 256)))

/-- SHR and SHL shift V[x] in place by one, VF being the bit shifted out (spec/42_alu.md R129, R131; decision D7, log entry
12; with x = 15 the shifted value stays, R91, decision D6). -/
def Obligations.Shifts : Prop :=
  ∀ (x : RegIdx) (s : State),
    (∃ t, exec (.shr x) s = .next t ∧
      WritesFlagAndV s t x (BitVec.ofNat 8 ((s.readV x).toNat % 2)) (BitVec.ofNat 8 ((s.readV x).toNat / 2))) ∧
    (∃ t, exec (.shl x) s = .next t ∧
      WritesFlagAndV s t x (BitVec.ofNat 8 ((s.readV x).toNat / 128)) (BitVec.ofNat 8 ((s.readV x).toNat * 2 % 256)))

/-- RND writes the presented byte AND NN to V[x] alone and consumes that byte; the byte is a free value, so this holds
whatever it is (spec/42_alu.md R132; decision D16, log entry 3). -/
def Obligations.RandomAnd : Prop :=
  ∀ (x : RegIdx) (nn : Byte) (s : State), ∃ t, exec (.rnd x nn) s = .next t ∧
    t = { s with v := t.v, draws := s.draws + 1 } ∧ t.readV x = Config.rndInput s.draws &&& nn ∧
    ∀ r, r ≠ x → t.readV r = s.readV r

/-! ### Index register and memory -/

/-- LD I, ADD I and LD F write I alone (spec/43_index_and_memory.md R141 to R143; the wrap of ADD I is decision D2's, log entry
8). -/
def Obligations.IndexSetters : Prop :=
  (∀ (nnn : Addr) (s : State), exec (.ldI nnn) s = .next { s with i := BitVec.ofNat 16 nnn.toNat }) ∧
  (∀ (x : RegIdx) (s : State),
    exec (.addI x) s = .next { s with i := BitVec.ofNat 16 ((s.i.toNat + (s.readV x).toNat) % 65536) } ∧
    exec (.ldF x) s = .next { s with i := BitVec.ofNat 16 ((s.readV x).toNat * 5) } ∧
    (s.readV x).toNat * 5 ≤ 1275)

/-- LD B stores the three digits of V[x] at I, I + 1, I + 2, each address reduced modulo 4096, and changes nothing else; a
memory of canonical form reads them back (spec/43_index_and_memory.md R144; decision D1, log entry 7). -/
def Obligations.StoreBcd : Prop :=
  ∀ (x : RegIdx) (s : State), ∃ t, exec (.ldB x) s = .next t ∧ t = { s with mem := t.mem } ∧
    (StateInv s →
      t.mem.read (arrayAddr (dataAddr s.i 0)) = BitVec.ofNat 8 ((s.readV x).toNat / 100) ∧
      t.mem.read (arrayAddr (dataAddr s.i 1)) = BitVec.ofNat 8 ((s.readV x).toNat / 10 % 10) ∧
      t.mem.read (arrayAddr (dataAddr s.i 2)) = BitVec.ofNat 8 ((s.readV x).toNat % 10)) ∧
    ∀ a, (∀ j < 3, a ≠ arrayAddr (dataAddr s.i j)) → t.mem.read a = s.mem.read a

/-- LD [I], Vx stores V[0] to V[x] from I on and moves I past them, and changes nothing else (spec/43_index_and_memory.md
R145; decisions D1, D2, log entries 7, 8). -/
def Obligations.RegisterDump : Prop :=
  ∀ (x : RegIdx) (s : State), ∃ t, exec (.dump x) s = .next t ∧
    t = { s with mem := t.mem, i := BitVec.ofNat 16 ((s.i.toNat + x.toNat + 1) % 65536) } ∧
    (StateInv s → ∀ r : RegIdx, r.toNat ≤ x.toNat → t.mem.read (arrayAddr (dataAddr s.i r.toNat)) = s.readV r) ∧
    ∀ a, (∀ j < x.toNat + 1, a ≠ arrayAddr (dataAddr s.i j)) → t.mem.read a = s.mem.read a

/-- LD Vx, [I] loads V[0] to V[x] from I on and moves I past them, and changes nothing else (spec/43_index_and_memory.md
R146; decisions D1, D2, log entries 7, 8). -/
def Obligations.RegisterLoad : Prop :=
  ∀ (x : RegIdx) (s : State), ∃ t, exec (.load x) s = .next t ∧
    t = { s with v := t.v, i := BitVec.ofNat 16 ((s.i.toNat + x.toNat + 1) % 65536) } ∧
    ∀ r : RegIdx, t.readV r =
      if r.toNat ≤ x.toNat then s.mem.read ((s.i.toNat + r.toNat) % 4096) else s.readV r

/-- A dump, then a load with the same x from the same place, restores the registers, wherever the range wraps
(spec/43_index_and_memory.md R146, its corner case). -/
def Obligations.LoadRestoresDump : Prop :=
  ∀ (x : RegIdx) (s : State), StateInv s → ∃ t, exec (.dump x) s = .next t ∧
    ∀ u : State, u.mem = t.mem → u.i.toNat % 4096 = s.i.toNat % 4096 →
      ∃ w, exec (.load x) u = .next w ∧ ∀ r : RegIdx, r.toNat ≤ x.toNat → w.readV r = s.readV r

/-! ### Display -/

/-- CLS clears every pixel and changes nothing else (spec/44_display.md R161). -/
def Obligations.ClearScreen : Prop :=
  ∀ s : State, ∃ t, exec .cls s = .next t ∧ t = { s with fb := t.fb } ∧ ∀ y x, t.fb.pixel y x = false

/-- DRW inverts exactly the pixels that a set sprite bit covers, sets VF to 1 exactly when one of them was set, and changes
nothing else, for every height 0 to 15 and every coordinate, V[15] included (spec/44_display.md R160, R162; the bit order is
decision D13's, log entry 14). -/
def Obligations.DrawSprite : Prop :=
  ∀ (x y : RegIdx) (n : Nibble) (s : State), ∃ t, exec (.drw x y n) s = .next t ∧
    t = { s with v := t.v, fb := t.fb } ∧
    (∀ py px, (spriteCovers s (s.readV x) (s.readV y) n py px → t.fb.pixel py px = !s.fb.pixel py px) ∧
      (¬ spriteCovers s (s.readV x) (s.readV y) n py px → t.fb.pixel py px = s.fb.pixel py px)) ∧
    ((∃ py px, spriteCovers s (s.readV x) (s.readV y) n py px ∧ s.fb.pixel py px = true) → t.readV flagReg = 0x01#8) ∧
    ((¬ ∃ py px, spriteCovers s (s.readV x) (s.readV y) n py px ∧ s.fb.pixel py px = true) → t.readV flagReg = 0x00#8) ∧
    ∀ r, r ≠ flagReg → t.readV r = s.readV r

/-- Drawing the same sprite twice at the same place restores the picture, whatever happened to other state in between
(spec/44_display.md R162 (f)). -/
def Obligations.DrawTwiceRestores : Prop :=
  ∀ (x y : RegIdx) (n : Nibble) (s : State), ∃ t, exec (.drw x y n) s = .next t ∧
    ∀ u : State, u.fb = t.fb → u.mem = s.mem → u.i = s.i → u.readV x = s.readV x → u.readV y = s.readV y →
      ∃ w, exec (.drw x y n) u = .next w ∧ w.fb = s.fb ∧
        ((∃ py px, spriteCovers s (s.readV x) (s.readV y) n py px ∧ s.fb.pixel py px = false) →
          w.readV flagReg = 0x01#8)

/-! ### Keypad and timers -/

/-- LD Vx, K: with no key pressed PC goes back by 2 and nothing else changes; else V[x] receives the lowest pressed index and
nothing else changes (spec/45_keypad_and_timers.md R172; spec/70_reset_and_hazards.md R241; the wrap of PC is decision D2's, log
entry 8). -/
def Obligations.GetKey : Prop :=
  (∀ (x : RegIdx) (s : State), (∀ k, s.readKey k = false) → exec (.ldVxKey x) s = .next { s with pc := s.pc - 2#16 }) ∧
  (∀ (x : RegIdx) (s : State) (k : Nibble), s.readKey k = true → (∀ j, j.toNat < k.toNat → s.readKey j = false) →
    ∃ t, exec (.ldVxKey x) s = .next t ∧ WritesV s t x (BitVec.ofNat 8 k.toNat))

/-- The two ways a program stands still: get key with no key pressed, and a jump to its own address. The step leaves the whole
state as it was (spec/45_keypad_and_timers.md R172 (a); spec/40_fetch_decode_execute.md R96; spec/41_control_flow.md R101). -/
def Obligations.StandingStill : Prop :=
  (∀ (x : RegIdx) (s : State), decodeWord (fetchWord s) = .ok (.ldVxKey x) → (∀ k, s.readKey k = false) → step s = .next s) ∧
  (∀ (nnn : Addr) (s : State), decodeWord (fetchWord s) = .ok (.jp nnn) → s.pc.toNat = nnn.toNat → step s = .next s)

/-- LD Vx, DT, LD DT, Vx and LD ST, Vx copy a byte and do nothing else (spec/45_keypad_and_timers.md R173 to R175). -/
def Obligations.TimerMoves : Prop :=
  ∀ (x : RegIdx) (s : State),
    (∃ t, exec (.ldVxDt x) s = .next t ∧ WritesV s t x s.dt) ∧
    exec (.ldDtVx x) s = .next { s with dt := s.readV x } ∧
    exec (.ldStVx x) s = .next { s with st := s.readV x }

/-! ### The operations of the outside -/

/-- Tick brings each timer down by 1, floored at 0, and changes nothing else (spec/60_exceptions.md R206). -/
def Obligations.TickCountsDown : Prop :=
  ∀ s : State, perform .tick s =
    .next { s with dt := BitVec.ofNat 8 (s.dt.toNat - 1), st := BitVec.ofNat 8 (s.st.toNat - 1) }

/-- KeySet and KeyClear write their one flag and nothing else, are idempotent, and refuse an index of 16 or more; Reset clears
all sixteen flags (spec/60_exceptions.md R207, R208; decision D17, log entry 22). -/
def Obligations.KeyOperations : Prop :=
  (∀ (k : Nat) (s : State), k < 16 →
    (∃ t, perform (.keySet k) s = .next t ∧ t = { s with key := t.key } ∧ perform (.keySet k) t = .next t ∧
      ∀ j : Nibble, t.readKey j = if j.toNat = k then true else s.readKey j) ∧
    (∃ t, perform (.keyClear k) s = .next t ∧ t = { s with key := t.key } ∧ perform (.keyClear k) t = .next t ∧
      ∀ j : Nibble, t.readKey j = if j.toNat = k then false else s.readKey j)) ∧
  (∀ (k : Nat) (s : State), 16 ≤ k →
    perform (.keySet k) s = .refused (.keyIndexTooWide k) ∧ perform (.keyClear k) s = .refused (.keyIndexTooWide k)) ∧
  (∀ (s t : State), perform .reset s = .next t → ∀ j, t.readKey j = false)

/-- Load accepts every length from 1 to 3583, puts byte i at 0x200 + i, and leaves every other byte and all other state
(spec/70_reset_and_hazards.md R233). -/
def Obligations.LoadSucceeds : Prop :=
  ∀ (bytes : List Byte) (s : State), 0 < bytes.length → bytes.length ≤ 3583 →
    (opLoad bytes s).success = true ∧ perform (.load bytes) s = .next (opLoad bytes s).state ∧
    (opLoad bytes s).state = { s with mem := (opLoad bytes s).state.mem } ∧
    (StateInv s → ∀ (i : Nat) (h : i < bytes.length), (opLoad bytes s).state.mem.read (0x200 + i) = bytes[i]) ∧
    ∀ a < 4096, (a < 0x200 ∨ 0x200 + bytes.length ≤ a) → (opLoad bytes s).state.mem.read a = s.mem.read a

/-- Load of an empty image or one longer than 3583 bytes is a failure that changes nothing, and no fault: the core goes on in
the state it had (spec/70_reset_and_hazards.md R234; conflict C2, decision D15, log entry 6). -/
def Obligations.LoadFails : Prop :=
  ∀ (bytes : List Byte) (s : State), (bytes.length = 0 ∨ 3583 < bytes.length) →
    opLoad bytes s = ⟨false, s⟩ ∧ perform (.load bytes) s = .next s

/-- After Reset every piece of state has the value of the table of rule R33, whatever it was before (spec/10_state.md R33;
spec/70_reset_and_hazards.md R230); FONT_ROM is the default of its parameter, of length 80 (decision D12, log entry 5;
another font: ResetAndLoadUnderParameters). That the
count of consumed random bytes goes on is the model's own choice (log entry 3). -/
def Obligations.ResetState : Prop :=
  fontRom.length = 80 ∧
  ∀ s : State, ∃ t, perform .reset s = .next t ∧ t = { State.reset with draws := s.draws } ∧
    (∀ r, t.readV r = 0x00#8) ∧ t.i = 0x0000#16 ∧ t.pc = 0x0200#16 ∧ t.stack = [] ∧ t.dt = 0x00#8 ∧ t.st = 0x00#8 ∧
    (∀ k, t.readKey k = false) ∧ (∀ y x, t.fb.pixel y x = false) ∧
    (∀ (a : Nat) (h : a < fontRom.length), t.mem.read a = fontRom[a]) ∧
    (∀ a, 80 ≤ a → a < 4096 → t.mem.read a = 0x00#8)

/-- After a fault every operation but Reset has no meaning, and Reset gives the reset state (spec/60_exceptions.md R201;
decision D19, log entry 21). That "no meaning" is a refusal by name is the model's own choice (log entry 32), and so is the count
of random bytes that goes on (log entry 3). -/
def Obligations.OnlyResetEndsAFault : Prop :=
  ∀ (f : Fault) (n : Nat) (op : Op),
    (op = .reset → applyOp op (.faulted f n) = .ok (.running { State.reset with draws := n })) ∧
    (op ≠ .reset → applyOp op (.faulted f n) = .error .afterFault)

/-- The sound signal is on exactly when ST is not 0 (spec/60_exceptions.md R210). -/
def Obligations.SoundSignal : Prop :=
  ∀ s : State, s.soundOn = true ↔ s.st.toNat ≠ 0

/-- The accessors read what is there: registers and keys in order, the stack oldest first with its depth, the 2048 pixels in
row-major order (spec/60_exceptions.md R209, R211; spec/10_state.md R27). Oldest first is the model's own choice (log entry
26). -/
def Obligations.AccessorsReadTheState : Prop :=
  ∀ s : State,
    s.registers.length = 16 ∧ (∀ r : RegIdx, s.registers[r.toNat]? = some (s.readV r)) ∧
    s.keys.length = 16 ∧ (∀ k : Nibble, s.keys[k.toNat]? = some (s.readKey k)) ∧
    s.stackSnapshot.reverse = s.stack ∧ s.stackSnapshot.length = s.depth ∧
    s.framebufferSnapshot.length = 2048 ∧
    (∀ (y : Fin 32) (x : Fin 64), s.framebufferSnapshot[y.val * 64 + x.val]? = some (s.fb.pixel y x))

/-! ### The parameters -/

/-- Whatever the parameters, a step is the step of the default core, but that CALL on a stack of STACK_DEPTH entries is the fault
StackOverflow with the address of the CALL word (spec/00_scope.md R5; spec/41_control_flow.md R102; spec/60_exceptions.md R202;
decision D5, log entry 4). -/
def Obligations.StepUnderParameters : Prop :=
  ∀ (p : Params) (s : State),
    (∀ nnn, decodeWord (fetchWord s) = .ok (.call nnn) → p.stackDepth = some s.stack.length →
      stepWith p s = .fault (.stackOverflow s.pc)) ∧
    ((∀ nnn, decodeWord (fetchWord s) = .ok (.call nnn) → p.stackDepth ≠ some s.stack.length) → stepWith p s = step s)

/-- Whatever the parameters, Reset leaves FONT_ROM at 0x000 to 0x04F, zero in every other byte and the rest as at the default
font, and Load accepts exactly the lengths from 1 to MAX_PROGRAM_LEN, puts the bytes at 0x200 where they fit below 0x1000, and
changes nothing on failure (spec/00_scope.md R5; spec/10_state.md R29, R33; spec/70_reset_and_hazards.md R230, R233, R234;
decisions D12, D15, log entries 5, 6). That the count of consumed random bytes goes on is the model's own choice (log entry 3), and
so is a MAX_PROGRAM_LEN above 3584, under which nothing is said of where a longer image's bytes go (log entry 34). The clause
`StateInv t` is the model's own too: it says that memory after Reset has the canonical form (log entry 18), held as its difference
from the reset image of the default font whatever the font is (log entry 33). -/
def Obligations.ResetAndLoadUnderParameters : Prop :=
  ∀ (p : Params) (s : State),
    (∃ t, performWith p .reset s = .next t ∧ t = { State.reset with mem := t.mem, draws := s.draws } ∧ StateInv t ∧
      (∀ (a : Nat) (h : a < 80), t.mem.read a = p.fontRom[a]) ∧ (∀ a, 80 ≤ a → a < 4096 → t.mem.read a = 0x00#8)) ∧
    (∀ bytes : List Byte, ∃ t, performWith p (.load bytes) s = .next t ∧ t = { s with mem := t.mem } ∧
      ((opLoadWith p.maxProgramLen bytes s).success = true ↔ 0 < bytes.length ∧ bytes.length ≤ p.maxProgramLen) ∧
      ((opLoadWith p.maxProgramLen bytes s).success = false → t = s) ∧
      ((opLoadWith p.maxProgramLen bytes s).success = true → bytes.length ≤ 3584 →
        (StateInv s → ∀ (i : Nat) (h : i < bytes.length), t.mem.read (0x200 + i) = bytes[i]) ∧
        ∀ a < 4096, (a < 0x200 ∨ 0x200 + bytes.length ≤ a) → t.mem.read a = s.mem.read a))
end

