-- ==== Sys2Proof/Laws/Decode.lean ====
section
/-! SUPPORT. The fields of each format's word, the word of its two bytes. -/

-- One declaration at a time: many small ones at once need more threads than the check's memory limit leaves room for.
set_option Elab.async false

namespace Sys2Proof

/-! ### Format A -/

@[simp] theorem fieldOp_encodeA (op : Nibble) (nnn : Addr) : fieldOp (encodeA op nnn) = op := by
  apply BitVec.eq_of_getLsbD_eq
  intro i hi
  simp only [fieldOp, encodeA, BitVec.getLsbD_extractLsb', BitVec.getLsbD_append]
  simp [show ¬ 12 + i < 12 by omega, hi]

@[simp] theorem fieldNNN_encodeA (op : Nibble) (nnn : Addr) : fieldNNN (encodeA op nnn) = nnn := by
  apply BitVec.eq_of_getLsbD_eq
  intro i hi
  simp only [fieldNNN, encodeA, BitVec.getLsbD_extractLsb', BitVec.getLsbD_append]
  simp [hi]

/-- Formats XNN, XS and S are format A with the address X ∥ NN. -/
theorem encodeXNN_eq (op : Nibble) (x : RegIdx) (nn : Byte) : encodeXNN op x nn = encodeA op (x ++ nn : Addr) := rfl

/-- Formats XY and XYN are format XNN with the byte Y ∥ N. -/
theorem encodeXYN_eq (op : Nibble) (x y : RegIdx) (n : Nibble) : encodeXYN op x y n = encodeXNN op x (y ++ n : Byte) := rfl

/-! ### Format XNN -/

@[simp] theorem fieldOp_encodeXNN (op : Nibble) (x : RegIdx) (nn : Byte) : fieldOp (encodeXNN op x nn) = op :=
  fieldOp_encodeA op _

@[simp] theorem fieldX_encodeXNN (op : Nibble) (x : RegIdx) (nn : Byte) : fieldX (encodeXNN op x nn) = x := by
  apply BitVec.eq_of_getLsbD_eq
  intro i hi
  simp only [fieldX, encodeXNN, BitVec.getLsbD_extractLsb', BitVec.getLsbD_append]
  simp [hi, show 8 + i < 12 by omega, show ¬ 8 + i < 8 by omega]

@[simp] theorem fieldNN_encodeXNN (op : Nibble) (x : RegIdx) (nn : Byte) : fieldNN (encodeXNN op x nn) = nn := by
  apply BitVec.eq_of_getLsbD_eq
  intro i hi
  simp only [fieldNN, encodeXNN, BitVec.getLsbD_extractLsb', BitVec.getLsbD_append]
  simp [hi, show i < 12 by omega]

/-! ### Format XYN -/

@[simp] theorem fieldOp_encodeXYN (op : Nibble) (x y : RegIdx) (n : Nibble) : fieldOp (encodeXYN op x y n) = op :=
  fieldOp_encodeA op _

@[simp] theorem fieldX_encodeXYN (op : Nibble) (x y : RegIdx) (n : Nibble) : fieldX (encodeXYN op x y n) = x :=
  fieldX_encodeXNN op x _

@[simp] theorem fieldY_encodeXYN (op : Nibble) (x y : RegIdx) (n : Nibble) : fieldY (encodeXYN op x y n) = y := by
  apply BitVec.eq_of_getLsbD_eq
  intro i hi
  simp only [fieldY, encodeXYN, BitVec.getLsbD_extractLsb', BitVec.getLsbD_append]
  simp [hi, show 4 + i < 12 by omega, show 4 + i < 8 by omega, show ¬ 4 + i < 4 by omega]

@[simp] theorem fieldN_encodeXYN (op : Nibble) (x y : RegIdx) (n : Nibble) : fieldN (encodeXYN op x y n) = n := by
  apply BitVec.eq_of_getLsbD_eq
  intro i hi
  simp only [fieldN, encodeXYN, BitVec.getLsbD_extractLsb', BitVec.getLsbD_append]
  simp [hi, show i < 12 by omega, show i < 8 by omega]

/-! ### A word from its own fields -/

/-- Every word is the format A word of its group and address. -/
@[simp] theorem encodeA_fields (w : Word) : encodeA (fieldOp w) (fieldNNN w) = w := by
  apply BitVec.eq_of_getLsbD_eq
  intro i hi
  simp only [encodeA, fieldOp, fieldNNN, BitVec.getLsbD_append, BitVec.getLsbD_extractLsb']
  split
  · simp [*]
  · simp [show i - 12 < 4 by omega, show 12 + (i - 12) = i by omega]

/-- The address field is X ∥ NN. -/
theorem fieldNNN_eq (w : Word) : fieldNNN w = (fieldX w ++ fieldNN w : Addr) := by
  apply BitVec.eq_of_getLsbD_eq
  intro i hi
  simp only [fieldNNN, fieldX, fieldNN, BitVec.getLsbD_append, BitVec.getLsbD_extractLsb']
  split
  · simp [*]
  · simp [show i - 8 < 4 by omega, show 8 + (i - 8) = i by omega, hi]

/-- The low byte is Y ∥ N. -/
theorem fieldNN_eq (w : Word) : fieldNN w = (fieldY w ++ fieldN w : Byte) := by
  apply BitVec.eq_of_getLsbD_eq
  intro i hi
  simp only [fieldNN, fieldY, fieldN, BitVec.getLsbD_append, BitVec.getLsbD_extractLsb']
  split
  · simp [*]
  · simp [show i - 4 < 4 by omega, show 4 + (i - 4) = i by omega, hi]

/-- Every word is the format XNN word of its group, X and low byte. -/
@[simp] theorem encodeXNN_fields (w : Word) : encodeXNN (fieldOp w) (fieldX w) (fieldNN w) = w := by
  rw [encodeXNN_eq, ← fieldNNN_eq, encodeA_fields]

/-- Every word is the format XYN word of its four nibbles. -/
@[simp] theorem encodeXYN_fields (w : Word) : encodeXYN (fieldOp w) (fieldX w) (fieldY w) (fieldN w) = w := by
  rw [encodeXYN_eq, ← fieldNN_eq, encodeXNN_fields]

/-! ### Bytes of a word -/

/-- A word is put together again from its two bytes (spec/30_encoding.md R70). -/
@[simp] theorem wordOfBytes_hi_lo (w : Word) : wordOfBytes (wordHi w) (wordLo w) = w := by
  apply BitVec.eq_of_getLsbD_eq
  intro i hi
  simp only [wordOfBytes, wordHi, wordLo, BitVec.getLsbD_append, BitVec.getLsbD_extractLsb']
  split
  · simp [*]
  · simp [show i - 8 < 8 by omega, show 8 + (i - 8) = i by omega]

/-- The decoder on bytes is the decoder on their word. -/
theorem decodeBytes_cons (hi lo : Byte) (rest : List Byte) :
    decodeBytes (hi :: lo :: rest) = match decodeWord (wordOfBytes hi lo) with
      | .ok i => .ok (i, rest)
      | .error r => .error r := rfl

end Sys2Proof
end

