-- ==== Sys2Proof/Laws/Display.lean ====
section
/-! SUPPORT. What each drawing operation does to each pixel and to the collision mark. -/

-- One declaration at a time: many small ones at once need more threads than the check's memory limit leaves room for.
set_option Elab.async false

namespace Sys2Proof.Machine

/-- A cleared grid has no set pixel. -/
@[simp] theorem Framebuffer.pixel_clear (y : Fin 32) (x : Fin 64) : Framebuffer.clear.pixel y x = false := by
  simp [Framebuffer.pixel, Framebuffer.clear]

/-- A grid is determined by its pixels. -/
theorem Framebuffer.ext_pixel {g h : Framebuffer} (e : ∀ y x, g.pixel y x = h.pixel y x) : g = h := by
  apply Vector.ext
  intro y hy
  apply Vector.ext
  intro x hx
  exact e ⟨y, hy⟩ ⟨x, hx⟩

/-- A toggle inverts its own pixel and leaves every other one alone. -/
@[simp] theorem Framebuffer.pixel_toggle (g : Framebuffer) (y y' : Fin 32) (x x' : Fin 64) :
    (g.toggle y x).pixel y' x' = if y' = y ∧ x' = x then !g.pixel y x else g.pixel y' x' := by
  simp only [Framebuffer.pixel, Framebuffer.toggle, Vector.getElem_set]
  by_cases hy : y' = y
  · subst hy
    by_cases hx : x' = x
    · subst hx; simp
    · have hx' : x.val ≠ x'.val := fun e => hx (Fin.ext e.symm)
      simp [hx, hx']
  · have hy' : y.val ≠ y'.val := fun e => hy (Fin.ext e.symm)
    simp [hy, hy']

/-- Drawing zero columns draws nothing. -/
@[simp] theorem Canvas.drawColumns_zero (b vx : Byte) (y : Fin 32) (col : Nat) (c : Canvas) :
    Canvas.drawColumns b vx y col 0 c = c := rfl

/-- Drawing one more column: the first one, then the rest. -/
theorem Canvas.drawColumns_succ (b vx : Byte) (y : Fin 32) (col n : Nat) (c : Canvas) :
    Canvas.drawColumns b vx y col (n + 1) c =
      Canvas.drawColumns b vx y (col + 1) n (if spriteBit b col then c.toggle y (pixelColumn vx col) else c) := rfl

/-- Drawing no row draws nothing. -/
@[simp] theorem Canvas.drawRows_nil (vx vy : Byte) (r : Nat) (c : Canvas) : Canvas.drawRows vx vy r [] c = c := rfl

/-- Drawing one more row: the first one, then the rest. -/
theorem Canvas.drawRows_cons (vx vy : Byte) (r : Nat) (b : Byte) (bs : List Byte) (c : Canvas) :
    Canvas.drawRows vx vy r (b :: bs) c =
      Canvas.drawRows vx vy (r + 1) bs (Canvas.drawColumns b vx (pixelRow vy r) 0 8 c) := rfl

/-- A set bit of the columns `col` to `col` + n - 1 of the sprite row `b` falls on (py, px). -/
def Canvas.ColumnsCover (b vx : Byte) (y : Fin 32) (col n : Nat) (py : Fin 32) (px : Fin 64) : Prop :=
  ∃ c, col ≤ c ∧ c < col + n ∧ spriteBit b c = true ∧ py = y ∧ px = pixelColumn vx c

/-- Two columns of one sprite row never share a pixel column. -/
theorem pixelColumn_inj (vx : Byte) (c d : Nat) (hc : c < 8) (hd : d < 8) (h : pixelColumn vx c = pixelColumn vx d) : c = d := by
  have := congrArg Fin.val h
  simp [pixelColumn, Fin.ofNat] at this
  omega

open Classical in
/-- Everything drawing columns does: covered pixels are inverted, the others kept, a collision marked exactly on a set one. -/
theorem Canvas.drawColumns_spec (b vx : Byte) (y : Fin 32) (n col : Nat) (h : col + n ≤ 8) (c : Canvas) :
    (∀ py px, (Canvas.drawColumns b vx y col n c).grid.pixel py px =
      if Canvas.ColumnsCover b vx y col n py px then !c.grid.pixel py px else c.grid.pixel py px) ∧
    ((Canvas.drawColumns b vx y col n c).collision = true ↔
      c.collision = true ∨ ∃ py px, Canvas.ColumnsCover b vx y col n py px ∧ c.grid.pixel py px = true) := by
  induction n generalizing col c with
  | zero =>
    have : ∀ py px, ¬ Canvas.ColumnsCover b vx y col 0 py px := by rintro py px ⟨d, h1, h2, _⟩; omega
    simp [this]
  | succ n ih =>
    rw [Canvas.drawColumns_succ]
    obtain ⟨i1, i2⟩ := ih (col+1) (by omega) (if spriteBit b col then c.toggle y (pixelColumn vx col) else c)
    have split' : ∀ py px, Canvas.ColumnsCover b vx y col (n+1) py px ↔
        (spriteBit b col = true ∧ py = y ∧ px = pixelColumn vx col) ∨ Canvas.ColumnsCover b vx y (col+1) n py px := by
      intro py px; constructor
      · rintro ⟨d, h1, h2, h3⟩
        rcases Nat.eq_or_lt_of_le h1 with rfl | h1
        · exact .inl h3
        · exact .inr ⟨d, h1, by omega, h3⟩
      · rintro (h3 | ⟨d, h1, h2, h3⟩)
        · exact ⟨col, le_refl _, by omega, h3⟩
        · exact ⟨d, by omega, by omega, h3⟩
    have disj : ∀ py px, (py = y ∧ px = pixelColumn vx col) → ¬ Canvas.ColumnsCover b vx y (col+1) n py px := by
      rintro py px ⟨_, hx⟩ ⟨d, h1, h2, _, _, h5⟩
      have := pixelColumn_inj vx col d (by omega) (by omega) (hx ▸ h5); omega
    by_cases hb : spriteBit b col = true
    · simp only [hb, if_true] at i1 i2 ⊢
      refine ⟨fun py px => ?_, ?_⟩
      · rw [i1]
        simp only [Canvas.toggle, Framebuffer.pixel_toggle]
        by_cases he : py = y ∧ px = pixelColumn vx col
        · have := disj py px he
          rw [if_neg this, if_pos he, if_pos ((split' py px).2 (.inl ⟨hb, he⟩))]
          rw [he.1, he.2]
        · have : Canvas.ColumnsCover b vx y col (n+1) py px ↔
              Canvas.ColumnsCover b vx y (col+1) n py px := by rw [split']; simp [he, hb]
          simp only [this, if_neg he]
      · rw [i2]
        simp only [Canvas.toggle, Framebuffer.pixel_toggle, Bool.or_eq_true]
        constructor
        · rintro ((h | h) | ⟨py, px, h1, h2⟩)
          · exact .inl h
          · exact .inr ⟨y, _, (split' _ _).2 (.inl ⟨hb, rfl, rfl⟩), h⟩
          · refine .inr ⟨py, px, (split' _ _).2 (.inr h1), ?_⟩
            rwa [if_neg (fun he => disj _ _ he h1)] at h2
        · rintro (h | ⟨py, px, h1, h2⟩)
          · exact .inl (.inl h)
          · rcases (split' _ _).1 h1 with ⟨_, rfl, rfl⟩ | h1
            · exact .inl (.inr h2)
            · refine .inr ⟨py, px, h1, ?_⟩
              rwa [if_neg (fun he => disj _ _ he h1)]
    · simp only [hb] at i1 i2 ⊢
      have : ∀ py px, Canvas.ColumnsCover b vx y col (n+1) py px ↔
          Canvas.ColumnsCover b vx y (col+1) n py px := by intro py px; rw [split']; simp [hb]
      simp only [this]
      exact ⟨by simpa using i1, by simpa using i2⟩

/-- A set bit of one of the sprite rows falls on (py, px), the first row being row `r`. -/
def Canvas.RowsCover (vx vy : Byte) (r : Nat) (bs : List Byte) (py : Fin 32) (px : Fin 64) : Prop :=
  ∃ k b, bs[k]? = some b ∧ Canvas.ColumnsCover b vx (pixelRow vy (r + k)) 0 8 py px

open Classical in
/-- Everything drawing rows does, for rows that do not overlap themselves (at most 32). -/
theorem Canvas.drawRows_spec (vx vy : Byte) (bs : List Byte) (r : Nat) (h : r + bs.length ≤ 32) (c : Canvas) :
    (∀ py px, (Canvas.drawRows vx vy r bs c).grid.pixel py px =
      if Canvas.RowsCover vx vy r bs py px then !c.grid.pixel py px else c.grid.pixel py px) ∧
    ((Canvas.drawRows vx vy r bs c).collision = true ↔
      c.collision = true ∨ ∃ py px, Canvas.RowsCover vx vy r bs py px ∧ c.grid.pixel py px = true) := by
  induction bs generalizing r c with
  | nil =>
    have : ∀ py px, ¬ Canvas.RowsCover vx vy r [] py px := by rintro py px ⟨k, b, h, _⟩; simp at h
    simp [this]
  | cons b bs ih =>
    simp at h
    rw [Canvas.drawRows_cons]
    obtain ⟨i1, i2⟩ := ih (r+1) (by omega) (Canvas.drawColumns b vx (pixelRow vy r) 0 8 c)
    obtain ⟨c1, c2⟩ := Canvas.drawColumns_spec b vx (pixelRow vy r) 8 0 (by omega) c
    have split' : ∀ py px, Canvas.RowsCover vx vy r (b::bs) py px ↔
        Canvas.ColumnsCover b vx (pixelRow vy r) 0 8 py px ∨ Canvas.RowsCover vx vy (r+1) bs py px := by
      intro py px; constructor
      · rintro ⟨k, b', h1, h2⟩
        cases k with
        | zero => simp at h1; subst h1; exact .inl h2
        | succ k => exact .inr ⟨k, b', by simpa using h1, by rwa [show r + 1 + k = r + (k+1) by omega]⟩
      · rintro (h | ⟨k, b', h1, h2⟩)
        · exact ⟨0, b, rfl, h⟩
        · exact ⟨k+1, b', by simpa using h1, by rwa [show r + (k+1) = r + 1 + k by omega]⟩
    have disj : ∀ py px, Canvas.ColumnsCover b vx (pixelRow vy r) 0 8 py px → ¬ Canvas.RowsCover vx vy (r+1) bs py px := by
      rintro py px ⟨d, _, _, _, h5, _⟩ ⟨k, b', hk, ⟨_, _, _, _, h5', _⟩⟩
      have : k < bs.length := by
        by_contra hc; rw [List.getElem?_eq_none (by omega)] at hk; cases hk
      have := congrArg Fin.val (h5.symm.trans h5')
      simp [pixelRow, Fin.ofNat] at this; omega
    refine ⟨fun py px => ?_, ?_⟩
    · rw [i1, c1]
      by_cases h1 : Canvas.ColumnsCover b vx (pixelRow vy r) 0 8 py px
      · rw [if_neg (disj _ _ h1), if_pos h1, if_pos ((split' _ _).2 (.inl h1))]
      · have : Canvas.RowsCover vx vy r (b::bs) py px ↔ Canvas.RowsCover vx vy (r+1) bs py px := by rw [split']; simp [h1]
        simp only [this, if_neg h1]
    · rw [i2, c2]
      constructor
      · rintro ((h | ⟨py, px, h1, h2⟩) | ⟨py, px, h1, h2⟩)
        · exact .inl h
        · exact .inr ⟨py, px, (split' _ _).2 (.inl h1), h2⟩
        · refine .inr ⟨py, px, (split' _ _).2 (.inr h1), ?_⟩
          rw [c1, if_neg (fun he => disj _ _ he h1)] at h2; exact h2
      · rintro (h | ⟨py, px, h1, h2⟩)
        · exact .inl (.inl h)
        · rcases (split' _ _).1 h1 with h1 | h1
          · exact .inl (.inr ⟨py, px, h1, h2⟩)
          · refine .inr ⟨py, px, h1, ?_⟩
            rw [c1, if_neg (fun he => disj _ _ he h1)]; exact h2

end Sys2Proof.Machine
end

