-- ==== Sys2Proof/Laws/Memory.lean ====
section
/-! SUPPORT. The laws of memory: what a read gives after a write, that every write keeps the canonical form, and what the
reset image under a given FONT_ROM reads as. -/

-- One declaration at a time: many small ones at once need more threads than the check's memory limit leaves room for.
set_option Elab.async false

namespace Sys2Proof.Machine

/-- Memory with nothing listed has the canonical form. -/
theorem Memory.wf_nil : Memory.wf [] := by simp [Memory.wf]

/-- A canonical memory is canonical without its first entry. -/
theorem Memory.wf_tail {c : Host.Cell} {m : Memory} (h : Memory.wf (c :: m)) : Memory.wf m :=
  ⟨(List.pairwise_cons.1 h.1).2, fun d hd => h.2 d (List.mem_cons_of_mem _ hd)⟩

/-- An address that no entry lists reads as the reset image. -/
theorem Memory.read_of_not_listed {m : Memory} {a : Nat} (h : ∀ c ∈ m, c.1 ≠ a) : m.read a = blankByte a := by
  induction m with
  | nil => rfl
  | cons c m ih =>
    have h1 := h c List.mem_cons_self
    have h2 := ih (fun d hd => h d (List.mem_cons_of_mem _ hd))
    rcases c with ⟨k, b⟩
    simp only [Memory.read]
    rw [if_neg (fun e => h1 e.symm), h2]

/-- A write leaves every other address alone. -/
theorem Memory.read_write_other (m : Memory) {a a' : Nat} (b : Byte) (h : a' ≠ a) :
    (m.write a b).read a' = m.read a' := by
  induction m with
  | nil =>
    simp only [Memory.write]
    split
    · rfl
    · simp [Memory.read, h]
  | cons c m ih =>
    rcases c with ⟨k, d⟩
    simp only [Memory.write]
    split
    · split
      · rfl
      · simp [Memory.read, h]
    · split
      · rename_i hk
        subst hk
        split <;> simp [Memory.read, h]
      · simp only [Memory.read, ih]

/-- A read of the address written gives the byte written, in a canonical memory. -/
theorem Memory.read_write_same {m : Memory} (hm : m.wf) (a : Nat) (b : Byte) : (m.write a b).read a = b := by
  induction m with
  | nil =>
    simp only [Memory.write]
    split
    · rename_i h; simp [Memory.read, h]
    · simp [Memory.read]
  | cons c m ih =>
    rcases c with ⟨k, d⟩
    have hrise := (List.pairwise_cons.1 hm.1).1
    simp only [Memory.write]
    split
    · rename_i hlt
      split
      · rename_i hb
        rw [Memory.read_of_not_listed, hb]
        intro e he
        rcases List.mem_cons.1 he with rfl | he
        · exact Nat.ne_of_gt hlt
        · exact Nat.ne_of_gt (Nat.lt_trans hlt (hrise e he))
      · simp [Memory.read]
    · split
      · rename_i hk
        subst hk
        split
        · rename_i hb
          rw [Memory.read_of_not_listed, hb]
          intro e he
          exact Nat.ne_of_gt (hrise e he)
        · simp [Memory.read]
      · rename_i h1 h2
        simp only [Memory.read, if_neg h2]
        exact ih (Memory.wf_tail hm)

/-- What a write lists: an old entry or the new one. -/
theorem Memory.mem_write {m : Memory} {a : Nat} {b : Byte} {c : Host.Cell} (h : c ∈ m.write a b) :
    c ∈ m ∨ (c = (a, b) ∧ b ≠ blankByte a) := by
  induction m with
  | nil =>
    simp only [Memory.write] at h
    split at h
    · simp at h
    · rename_i hb; exact .inr ⟨by simpa using h, hb⟩
  | cons d m ih =>
    rcases d with ⟨k, e⟩
    simp only [Memory.write] at h
    split at h
    · split at h
      · exact .inl h
      · rename_i hb
        rcases List.mem_cons.1 h with rfl | h
        · exact .inr ⟨rfl, hb⟩
        · exact .inl h
    · split at h
      · split at h
        · exact .inl (List.mem_cons_of_mem _ h)
        · rename_i hb
          rcases List.mem_cons.1 h with rfl | h
          · exact .inr ⟨rfl, hb⟩
          · exact .inl (List.mem_cons_of_mem _ h)
      · rcases List.mem_cons.1 h with rfl | h
        · exact .inl List.mem_cons_self
        · exact (ih h).imp (List.mem_cons_of_mem _) id

/-- A write inside the array keeps the canonical form. -/
theorem Memory.write_wf {m : Memory} (hm : m.wf) {a : Nat} (ha : a < memSize) (b : Byte) : (m.write a b).wf := by
  refine ⟨?_, fun c hc => ?_⟩
  · induction m with
    | nil => simp only [Memory.write]; split <;> simp
    | cons c m ih =>
      rcases c with ⟨k, d⟩
      have hp := List.pairwise_cons.1 hm.1
      simp only [Memory.write]
      split
      · rename_i hlt
        split
        · exact hm.1
        · refine List.pairwise_cons.2 ⟨fun e he => ?_, hm.1⟩
          rcases List.mem_cons.1 he with rfl | he
          · exact hlt
          · exact Nat.lt_trans hlt (hp.1 e he)
      · split
        · rename_i hk
          subst hk
          split
          · exact hp.2
          · exact List.pairwise_cons.2 ⟨hp.1, hp.2⟩
        · refine List.pairwise_cons.2 ⟨fun e he => ?_, ih (Memory.wf_tail hm)⟩
          rcases Memory.mem_write he with he | ⟨rfl, _⟩
          · exact hp.1 e he
          · simp only; omega
  · rcases Memory.mem_write hc with hc | ⟨rfl, hb⟩
    · exact hm.2 c hc
    · exact ⟨ha, hb⟩

/-- The reduced address lies in the array (spec/20_memory.md R52). -/
theorem arrayAddr_lt (addr : Nat) : arrayAddr addr < memSize := Nat.mod_lt _ (by decide)

/-- Everything a one-byte store does to a later read (spec/20_memory.md R59). -/
theorem memRead_memWrite {m : Memory} (hm : m.wf) (a c : Nat) (b : Byte) :
    memRead (memWrite m a b) c = if arrayAddr c = arrayAddr a then b else memRead m c := by
  unfold memRead memWrite
  split
  · rename_i h; rw [h, Memory.read_write_same hm]
  · rename_i h; exact Memory.read_write_other m b h

/-- A one-byte store leaves every other byte alone, in any memory. -/
theorem memWrite_read_other (m : Memory) {addr a : Nat} (b : Byte) (h : a ≠ arrayAddr addr) :
    (memWrite m addr b).read a = m.read a :=
  Memory.read_write_other m b h

/-- A one-byte store keeps the canonical form. -/
theorem memWrite_wf {m : Memory} (hm : m.wf) (addr : Nat) (b : Byte) : (memWrite m addr b).wf :=
  Memory.write_wf hm (arrayAddr_lt addr) b

/-- A store of several bytes keeps the canonical form. -/
theorem memWriteBytes_wf {m : Memory} (hm : m.wf) (addr : Nat) (bs : List Byte) : (memWriteBytes m addr bs).wf := by
  induction bs generalizing m addr with
  | nil => exact hm
  | cons b bs ih => exact ih (memWrite_wf hm addr b) (addr + 1)

/-- A store of several bytes leaves every byte outside them alone, in any memory. -/
theorem memWriteBytes_read_other (m : Memory) (addr : Nat) (bs : List Byte) {a : Nat}
    (h : ∀ j < bs.length, a ≠ arrayAddr (addr + j)) : (memWriteBytes m addr bs).read a = m.read a := by
  induction bs generalizing m addr with
  | nil => rfl
  | cons b bs ih =>
    rw [memWriteBytes, ih, memWrite_read_other]
    · simpa using h 0 (by simp)
    · intro j hj
      have := h (j + 1) (by simpa using hj)
      rwa [show addr + 1 + j = addr + (j + 1) by omega]

/-- A store of at most 4096 bytes puts byte `j` at address + j, reduced. -/
theorem memWriteBytes_read_stored {m : Memory} (hm : m.wf) (addr : Nat) (bs : List Byte) (hl : bs.length ≤ memSize)
    {j : Nat} (hj : j < bs.length) : (memWriteBytes m addr bs).read (arrayAddr (addr + j)) = bs[j] := by
  induction bs generalizing m addr j with
  | nil => simp at hj
  | cons b bs ih =>
    simp only [List.length_cons] at hl hj
    cases j with
    | zero =>
      rw [memWriteBytes, memWriteBytes_read_other]
      · simpa [memWrite] using Memory.read_write_same hm (arrayAddr addr) b
      · intro j hj'
        simp only [arrayAddr, memSize] at *
        omega
    | succ j =>
      rw [memWriteBytes, show addr + (j + 1) = addr + 1 + j by omega]
      simpa using ih (memWrite_wf hm addr b) (addr + 1) (by omega) (by omega)

@[simp] theorem memReadBytes_length (m : Memory) (addr n : Nat) : (memReadBytes m addr n).length = n := by
  induction n generalizing addr with
  | zero => rfl
  | succ n ih => simp [memReadBytes, ih]

/-- Byte `j` of a read of `n` bytes is the byte at address + j. -/
theorem memReadBytes_getElem? (m : Memory) (addr n j : Nat) :
    (memReadBytes m addr n)[j]? = if j < n then some (memRead m (addr + j)) else none := by
  induction n generalizing addr j with
  | zero => simp [memReadBytes]
  | succ n ih =>
    cases j with
    | zero => simp [memReadBytes]
    | succ j => simp [memReadBytes, ih, show addr + 1 + j = addr + (j + 1) by omega]

/-! ### The reset image -/

/-- The reset image under any FONT_ROM has the canonical form. -/
theorem resetMemory_wf (font : Vector Byte 80) : (resetMemory font).wf := memWriteBytes_wf Memory.wf_nil _ _

/-- The reset image holds FONT_ROM at 0x000 to 0x04F. -/
theorem resetMemory_read_font (font : Vector Byte 80) {a : Nat} (h : a < 80) : (resetMemory font).read a = font[a] := by
  have := memWriteBytes_read_stored Memory.wf_nil 0 font.toList (by simp [memSize]) (j := a) (by simpa using h)
  rw [Nat.zero_add, arrayAddr, Nat.mod_eq_of_lt (show a < memSize by simp only [memSize]; omega)] at this
  simpa [resetMemory] using this

/-- The reset image is zero above the font. -/
theorem resetMemory_read_rest (font : Vector Byte 80) {a : Nat} (h : 80 ≤ a) : (resetMemory font).read a = 0x00#8 := by
  rw [resetMemory, memWriteBytes_read_other]
  · exact List.getD_eq_default _ _ (Nat.le_trans (by decide) h)
  · intro j hj
    have : j < 80 := by simpa using hj
    rw [Nat.zero_add, arrayAddr, Nat.mod_eq_of_lt (show j < memSize by simp only [memSize]; omega)]
    omega

/-- At the default FONT_ROM nothing is listed. -/
@[simp] theorem resetMemory_default : resetMemory Params.default.fontRom = [] := by decide

end Sys2Proof.Machine
end

