-- ==== Sys2Proof/Laws/State.lean ====
section
/-! SUPPORT. One lemma per field per update of the state, so that no later proof unfolds a record update. -/

-- One declaration at a time: many small ones at once need more threads than the check's memory limit leaves room for.
set_option Elab.async false

namespace Sys2Proof.Machine

/-! ### writeV -/

@[simp] theorem State.writeV_v (s : State) (x : RegIdx) (b : Byte) : (s.writeV x b).v = s.v.set x.toNat b x.isLt := rfl
@[simp] theorem State.writeV_i (s : State) (x : RegIdx) (b : Byte) : (s.writeV x b).i = s.i := rfl
@[simp] theorem State.writeV_pc (s : State) (x : RegIdx) (b : Byte) : (s.writeV x b).pc = s.pc := rfl
@[simp] theorem State.writeV_stack (s : State) (x : RegIdx) (b : Byte) : (s.writeV x b).stack = s.stack := rfl
@[simp] theorem State.writeV_dt (s : State) (x : RegIdx) (b : Byte) : (s.writeV x b).dt = s.dt := rfl
@[simp] theorem State.writeV_st (s : State) (x : RegIdx) (b : Byte) : (s.writeV x b).st = s.st := rfl
@[simp] theorem State.writeV_key (s : State) (x : RegIdx) (b : Byte) : (s.writeV x b).key = s.key := rfl
@[simp] theorem State.writeV_fb (s : State) (x : RegIdx) (b : Byte) : (s.writeV x b).fb = s.fb := rfl
@[simp] theorem State.writeV_mem (s : State) (x : RegIdx) (b : Byte) : (s.writeV x b).mem = s.mem := rfl
@[simp] theorem State.writeV_draws (s : State) (x : RegIdx) (b : Byte) : (s.writeV x b).draws = s.draws := rfl

/-! ### writeI -/

@[simp] theorem State.writeI_v (s : State) (w : Word) : (s.writeI w).v = s.v := rfl
@[simp] theorem State.writeI_i (s : State) (w : Word) : (s.writeI w).i = w := rfl
@[simp] theorem State.writeI_pc (s : State) (w : Word) : (s.writeI w).pc = s.pc := rfl
@[simp] theorem State.writeI_stack (s : State) (w : Word) : (s.writeI w).stack = s.stack := rfl
@[simp] theorem State.writeI_dt (s : State) (w : Word) : (s.writeI w).dt = s.dt := rfl
@[simp] theorem State.writeI_st (s : State) (w : Word) : (s.writeI w).st = s.st := rfl
@[simp] theorem State.writeI_key (s : State) (w : Word) : (s.writeI w).key = s.key := rfl
@[simp] theorem State.writeI_fb (s : State) (w : Word) : (s.writeI w).fb = s.fb := rfl
@[simp] theorem State.writeI_mem (s : State) (w : Word) : (s.writeI w).mem = s.mem := rfl
@[simp] theorem State.writeI_draws (s : State) (w : Word) : (s.writeI w).draws = s.draws := rfl

/-! ### jump -/

@[simp] theorem State.jump_v (s : State) (w : Word) : (s.jump w).v = s.v := rfl
@[simp] theorem State.jump_i (s : State) (w : Word) : (s.jump w).i = s.i := rfl
@[simp] theorem State.jump_pc (s : State) (w : Word) : (s.jump w).pc = w := rfl
@[simp] theorem State.jump_stack (s : State) (w : Word) : (s.jump w).stack = s.stack := rfl
@[simp] theorem State.jump_dt (s : State) (w : Word) : (s.jump w).dt = s.dt := rfl
@[simp] theorem State.jump_st (s : State) (w : Word) : (s.jump w).st = s.st := rfl
@[simp] theorem State.jump_key (s : State) (w : Word) : (s.jump w).key = s.key := rfl
@[simp] theorem State.jump_fb (s : State) (w : Word) : (s.jump w).fb = s.fb := rfl
@[simp] theorem State.jump_mem (s : State) (w : Word) : (s.jump w).mem = s.mem := rfl
@[simp] theorem State.jump_draws (s : State) (w : Word) : (s.jump w).draws = s.draws := rfl

/-! ### advance -/

@[simp] theorem State.advance_v (s : State) : (s.advance).v = s.v := rfl
@[simp] theorem State.advance_i (s : State) : (s.advance).i = s.i := rfl
@[simp] theorem State.advance_pc (s : State) : (s.advance).pc = s.pc + 2#16 := rfl
@[simp] theorem State.advance_stack (s : State) : (s.advance).stack = s.stack := rfl
@[simp] theorem State.advance_dt (s : State) : (s.advance).dt = s.dt := rfl
@[simp] theorem State.advance_st (s : State) : (s.advance).st = s.st := rfl
@[simp] theorem State.advance_key (s : State) : (s.advance).key = s.key := rfl
@[simp] theorem State.advance_fb (s : State) : (s.advance).fb = s.fb := rfl
@[simp] theorem State.advance_mem (s : State) : (s.advance).mem = s.mem := rfl
@[simp] theorem State.advance_draws (s : State) : (s.advance).draws = s.draws := rfl

/-! ### rewind -/

@[simp] theorem State.rewind_v (s : State) : (s.rewind).v = s.v := rfl
@[simp] theorem State.rewind_i (s : State) : (s.rewind).i = s.i := rfl
@[simp] theorem State.rewind_pc (s : State) : (s.rewind).pc = s.pc - 2#16 := rfl
@[simp] theorem State.rewind_stack (s : State) : (s.rewind).stack = s.stack := rfl
@[simp] theorem State.rewind_dt (s : State) : (s.rewind).dt = s.dt := rfl
@[simp] theorem State.rewind_st (s : State) : (s.rewind).st = s.st := rfl
@[simp] theorem State.rewind_key (s : State) : (s.rewind).key = s.key := rfl
@[simp] theorem State.rewind_fb (s : State) : (s.rewind).fb = s.fb := rfl
@[simp] theorem State.rewind_mem (s : State) : (s.rewind).mem = s.mem := rfl
@[simp] theorem State.rewind_draws (s : State) : (s.rewind).draws = s.draws := rfl

/-! ### push -/

@[simp] theorem State.push_v (s : State) (w : Word) : (s.push w).v = s.v := rfl
@[simp] theorem State.push_i (s : State) (w : Word) : (s.push w).i = s.i := rfl
@[simp] theorem State.push_pc (s : State) (w : Word) : (s.push w).pc = s.pc := rfl
@[simp] theorem State.push_stack (s : State) (w : Word) : (s.push w).stack = w :: s.stack := rfl
@[simp] theorem State.push_dt (s : State) (w : Word) : (s.push w).dt = s.dt := rfl
@[simp] theorem State.push_st (s : State) (w : Word) : (s.push w).st = s.st := rfl
@[simp] theorem State.push_key (s : State) (w : Word) : (s.push w).key = s.key := rfl
@[simp] theorem State.push_fb (s : State) (w : Word) : (s.push w).fb = s.fb := rfl
@[simp] theorem State.push_mem (s : State) (w : Word) : (s.push w).mem = s.mem := rfl
@[simp] theorem State.push_draws (s : State) (w : Word) : (s.push w).draws = s.draws := rfl

/-! ### withStack -/

@[simp] theorem State.withStack_v (s : State) (l : List Word) : (s.withStack l).v = s.v := rfl
@[simp] theorem State.withStack_i (s : State) (l : List Word) : (s.withStack l).i = s.i := rfl
@[simp] theorem State.withStack_pc (s : State) (l : List Word) : (s.withStack l).pc = s.pc := rfl
@[simp] theorem State.withStack_stack (s : State) (l : List Word) : (s.withStack l).stack = l := rfl
@[simp] theorem State.withStack_dt (s : State) (l : List Word) : (s.withStack l).dt = s.dt := rfl
@[simp] theorem State.withStack_st (s : State) (l : List Word) : (s.withStack l).st = s.st := rfl
@[simp] theorem State.withStack_key (s : State) (l : List Word) : (s.withStack l).key = s.key := rfl
@[simp] theorem State.withStack_fb (s : State) (l : List Word) : (s.withStack l).fb = s.fb := rfl
@[simp] theorem State.withStack_mem (s : State) (l : List Word) : (s.withStack l).mem = s.mem := rfl
@[simp] theorem State.withStack_draws (s : State) (l : List Word) : (s.withStack l).draws = s.draws := rfl

/-! ### writeDT -/

@[simp] theorem State.writeDT_v (s : State) (b : Byte) : (s.writeDT b).v = s.v := rfl
@[simp] theorem State.writeDT_i (s : State) (b : Byte) : (s.writeDT b).i = s.i := rfl
@[simp] theorem State.writeDT_pc (s : State) (b : Byte) : (s.writeDT b).pc = s.pc := rfl
@[simp] theorem State.writeDT_stack (s : State) (b : Byte) : (s.writeDT b).stack = s.stack := rfl
@[simp] theorem State.writeDT_dt (s : State) (b : Byte) : (s.writeDT b).dt = b := rfl
@[simp] theorem State.writeDT_st (s : State) (b : Byte) : (s.writeDT b).st = s.st := rfl
@[simp] theorem State.writeDT_key (s : State) (b : Byte) : (s.writeDT b).key = s.key := rfl
@[simp] theorem State.writeDT_fb (s : State) (b : Byte) : (s.writeDT b).fb = s.fb := rfl
@[simp] theorem State.writeDT_mem (s : State) (b : Byte) : (s.writeDT b).mem = s.mem := rfl
@[simp] theorem State.writeDT_draws (s : State) (b : Byte) : (s.writeDT b).draws = s.draws := rfl

/-! ### writeST -/

@[simp] theorem State.writeST_v (s : State) (b : Byte) : (s.writeST b).v = s.v := rfl
@[simp] theorem State.writeST_i (s : State) (b : Byte) : (s.writeST b).i = s.i := rfl
@[simp] theorem State.writeST_pc (s : State) (b : Byte) : (s.writeST b).pc = s.pc := rfl
@[simp] theorem State.writeST_stack (s : State) (b : Byte) : (s.writeST b).stack = s.stack := rfl
@[simp] theorem State.writeST_dt (s : State) (b : Byte) : (s.writeST b).dt = s.dt := rfl
@[simp] theorem State.writeST_st (s : State) (b : Byte) : (s.writeST b).st = b := rfl
@[simp] theorem State.writeST_key (s : State) (b : Byte) : (s.writeST b).key = s.key := rfl
@[simp] theorem State.writeST_fb (s : State) (b : Byte) : (s.writeST b).fb = s.fb := rfl
@[simp] theorem State.writeST_mem (s : State) (b : Byte) : (s.writeST b).mem = s.mem := rfl
@[simp] theorem State.writeST_draws (s : State) (b : Byte) : (s.writeST b).draws = s.draws := rfl

/-! ### writeKey -/

@[simp] theorem State.writeKey_v (s : State) (k : Nibble) (p : Bool) : (s.writeKey k p).v = s.v := rfl
@[simp] theorem State.writeKey_i (s : State) (k : Nibble) (p : Bool) : (s.writeKey k p).i = s.i := rfl
@[simp] theorem State.writeKey_pc (s : State) (k : Nibble) (p : Bool) : (s.writeKey k p).pc = s.pc := rfl
@[simp] theorem State.writeKey_stack (s : State) (k : Nibble) (p : Bool) : (s.writeKey k p).stack = s.stack := rfl
@[simp] theorem State.writeKey_dt (s : State) (k : Nibble) (p : Bool) : (s.writeKey k p).dt = s.dt := rfl
@[simp] theorem State.writeKey_st (s : State) (k : Nibble) (p : Bool) : (s.writeKey k p).st = s.st := rfl
@[simp] theorem State.writeKey_key (s : State) (k : Nibble) (p : Bool) : (s.writeKey k p).key = s.key.set k.toNat p k.isLt := rfl
@[simp] theorem State.writeKey_fb (s : State) (k : Nibble) (p : Bool) : (s.writeKey k p).fb = s.fb := rfl
@[simp] theorem State.writeKey_mem (s : State) (k : Nibble) (p : Bool) : (s.writeKey k p).mem = s.mem := rfl
@[simp] theorem State.writeKey_draws (s : State) (k : Nibble) (p : Bool) : (s.writeKey k p).draws = s.draws := rfl

/-! ### writeFB -/

@[simp] theorem State.writeFB_v (s : State) (g : Framebuffer) : (s.writeFB g).v = s.v := rfl
@[simp] theorem State.writeFB_i (s : State) (g : Framebuffer) : (s.writeFB g).i = s.i := rfl
@[simp] theorem State.writeFB_pc (s : State) (g : Framebuffer) : (s.writeFB g).pc = s.pc := rfl
@[simp] theorem State.writeFB_stack (s : State) (g : Framebuffer) : (s.writeFB g).stack = s.stack := rfl
@[simp] theorem State.writeFB_dt (s : State) (g : Framebuffer) : (s.writeFB g).dt = s.dt := rfl
@[simp] theorem State.writeFB_st (s : State) (g : Framebuffer) : (s.writeFB g).st = s.st := rfl
@[simp] theorem State.writeFB_key (s : State) (g : Framebuffer) : (s.writeFB g).key = s.key := rfl
@[simp] theorem State.writeFB_fb (s : State) (g : Framebuffer) : (s.writeFB g).fb = g := rfl
@[simp] theorem State.writeFB_mem (s : State) (g : Framebuffer) : (s.writeFB g).mem = s.mem := rfl
@[simp] theorem State.writeFB_draws (s : State) (g : Framebuffer) : (s.writeFB g).draws = s.draws := rfl

/-! ### writeMem -/

@[simp] theorem State.writeMem_v (s : State) (m : Memory) : (s.writeMem m).v = s.v := rfl
@[simp] theorem State.writeMem_i (s : State) (m : Memory) : (s.writeMem m).i = s.i := rfl
@[simp] theorem State.writeMem_pc (s : State) (m : Memory) : (s.writeMem m).pc = s.pc := rfl
@[simp] theorem State.writeMem_stack (s : State) (m : Memory) : (s.writeMem m).stack = s.stack := rfl
@[simp] theorem State.writeMem_dt (s : State) (m : Memory) : (s.writeMem m).dt = s.dt := rfl
@[simp] theorem State.writeMem_st (s : State) (m : Memory) : (s.writeMem m).st = s.st := rfl
@[simp] theorem State.writeMem_key (s : State) (m : Memory) : (s.writeMem m).key = s.key := rfl
@[simp] theorem State.writeMem_fb (s : State) (m : Memory) : (s.writeMem m).fb = s.fb := rfl
@[simp] theorem State.writeMem_mem (s : State) (m : Memory) : (s.writeMem m).mem = m := rfl
@[simp] theorem State.writeMem_draws (s : State) (m : Memory) : (s.writeMem m).draws = s.draws := rfl

/-! ### consumeRandom -/

@[simp] theorem State.consumeRandom_v (s : State) : (s.consumeRandom).v = s.v := rfl
@[simp] theorem State.consumeRandom_i (s : State) : (s.consumeRandom).i = s.i := rfl
@[simp] theorem State.consumeRandom_pc (s : State) : (s.consumeRandom).pc = s.pc := rfl
@[simp] theorem State.consumeRandom_stack (s : State) : (s.consumeRandom).stack = s.stack := rfl
@[simp] theorem State.consumeRandom_dt (s : State) : (s.consumeRandom).dt = s.dt := rfl
@[simp] theorem State.consumeRandom_st (s : State) : (s.consumeRandom).st = s.st := rfl
@[simp] theorem State.consumeRandom_key (s : State) : (s.consumeRandom).key = s.key := rfl
@[simp] theorem State.consumeRandom_fb (s : State) : (s.consumeRandom).fb = s.fb := rfl
@[simp] theorem State.consumeRandom_mem (s : State) : (s.consumeRandom).mem = s.mem := rfl
@[simp] theorem State.consumeRandom_draws (s : State) : (s.consumeRandom).draws = s.draws + 1 := rfl

/-! ### skipIf -/

@[simp] theorem State.skipIf_v (s : State) (c : Bool) : (s.skipIf c).v = s.v := by cases c <;> rfl
@[simp] theorem State.skipIf_i (s : State) (c : Bool) : (s.skipIf c).i = s.i := by cases c <;> rfl
@[simp] theorem State.skipIf_pc (s : State) (c : Bool) : (s.skipIf c).pc = if c then s.pc + 2#16 else s.pc := by cases c <;> rfl
@[simp] theorem State.skipIf_stack (s : State) (c : Bool) : (s.skipIf c).stack = s.stack := by cases c <;> rfl
@[simp] theorem State.skipIf_dt (s : State) (c : Bool) : (s.skipIf c).dt = s.dt := by cases c <;> rfl
@[simp] theorem State.skipIf_st (s : State) (c : Bool) : (s.skipIf c).st = s.st := by cases c <;> rfl
@[simp] theorem State.skipIf_key (s : State) (c : Bool) : (s.skipIf c).key = s.key := by cases c <;> rfl
@[simp] theorem State.skipIf_fb (s : State) (c : Bool) : (s.skipIf c).fb = s.fb := by cases c <;> rfl
@[simp] theorem State.skipIf_mem (s : State) (c : Bool) : (s.skipIf c).mem = s.mem := by cases c <;> rfl
@[simp] theorem State.skipIf_draws (s : State) (c : Bool) : (s.skipIf c).draws = s.draws := by cases c <;> rfl

/-! ### writeFlagThenResult, randomAnd, advanceIndex, placeWord -/

@[simp] theorem State.writeFlagThenResult_v (s : State) (x : RegIdx) (c r : Byte) : (s.writeFlagThenResult x c r).v = (s.v.set flagReg.toNat c flagReg.isLt).set x.toNat r x.isLt := rfl
@[simp] theorem State.writeFlagThenResult_i (s : State) (x : RegIdx) (c r : Byte) : (s.writeFlagThenResult x c r).i = s.i := rfl
@[simp] theorem State.writeFlagThenResult_pc (s : State) (x : RegIdx) (c r : Byte) : (s.writeFlagThenResult x c r).pc = s.pc := rfl
@[simp] theorem State.writeFlagThenResult_stack (s : State) (x : RegIdx) (c r : Byte) : (s.writeFlagThenResult x c r).stack = s.stack := rfl
@[simp] theorem State.writeFlagThenResult_dt (s : State) (x : RegIdx) (c r : Byte) : (s.writeFlagThenResult x c r).dt = s.dt := rfl
@[simp] theorem State.writeFlagThenResult_st (s : State) (x : RegIdx) (c r : Byte) : (s.writeFlagThenResult x c r).st = s.st := rfl
@[simp] theorem State.writeFlagThenResult_key (s : State) (x : RegIdx) (c r : Byte) : (s.writeFlagThenResult x c r).key = s.key := rfl
@[simp] theorem State.writeFlagThenResult_fb (s : State) (x : RegIdx) (c r : Byte) : (s.writeFlagThenResult x c r).fb = s.fb := rfl
@[simp] theorem State.writeFlagThenResult_mem (s : State) (x : RegIdx) (c r : Byte) : (s.writeFlagThenResult x c r).mem = s.mem := rfl
@[simp] theorem State.writeFlagThenResult_draws (s : State) (x : RegIdx) (c r : Byte) : (s.writeFlagThenResult x c r).draws = s.draws := rfl
@[simp] theorem State.randomAnd_v (s : State) (r : Byte) (x : RegIdx) (nn : Byte) : (s.randomAnd r x nn).v = s.v.set x.toNat (r &&& nn) x.isLt := rfl
@[simp] theorem State.randomAnd_i (s : State) (r : Byte) (x : RegIdx) (nn : Byte) : (s.randomAnd r x nn).i = s.i := rfl
@[simp] theorem State.randomAnd_pc (s : State) (r : Byte) (x : RegIdx) (nn : Byte) : (s.randomAnd r x nn).pc = s.pc := rfl
@[simp] theorem State.randomAnd_stack (s : State) (r : Byte) (x : RegIdx) (nn : Byte) : (s.randomAnd r x nn).stack = s.stack := rfl
@[simp] theorem State.randomAnd_dt (s : State) (r : Byte) (x : RegIdx) (nn : Byte) : (s.randomAnd r x nn).dt = s.dt := rfl
@[simp] theorem State.randomAnd_st (s : State) (r : Byte) (x : RegIdx) (nn : Byte) : (s.randomAnd r x nn).st = s.st := rfl
@[simp] theorem State.randomAnd_key (s : State) (r : Byte) (x : RegIdx) (nn : Byte) : (s.randomAnd r x nn).key = s.key := rfl
@[simp] theorem State.randomAnd_fb (s : State) (r : Byte) (x : RegIdx) (nn : Byte) : (s.randomAnd r x nn).fb = s.fb := rfl
@[simp] theorem State.randomAnd_mem (s : State) (r : Byte) (x : RegIdx) (nn : Byte) : (s.randomAnd r x nn).mem = s.mem := rfl
@[simp] theorem State.randomAnd_draws (s : State) (r : Byte) (x : RegIdx) (nn : Byte) : (s.randomAnd r x nn).draws = s.draws := rfl
@[simp] theorem State.advanceIndex_v (s : State) (x : RegIdx) : (s.advanceIndex x).v = s.v := rfl
@[simp] theorem State.advanceIndex_i (s : State) (x : RegIdx) : (s.advanceIndex x).i = s.i + BitVec.ofNat 16 (rangeCount x) := rfl
@[simp] theorem State.advanceIndex_pc (s : State) (x : RegIdx) : (s.advanceIndex x).pc = s.pc := rfl
@[simp] theorem State.advanceIndex_stack (s : State) (x : RegIdx) : (s.advanceIndex x).stack = s.stack := rfl
@[simp] theorem State.advanceIndex_dt (s : State) (x : RegIdx) : (s.advanceIndex x).dt = s.dt := rfl
@[simp] theorem State.advanceIndex_st (s : State) (x : RegIdx) : (s.advanceIndex x).st = s.st := rfl
@[simp] theorem State.advanceIndex_key (s : State) (x : RegIdx) : (s.advanceIndex x).key = s.key := rfl
@[simp] theorem State.advanceIndex_fb (s : State) (x : RegIdx) : (s.advanceIndex x).fb = s.fb := rfl
@[simp] theorem State.advanceIndex_mem (s : State) (x : RegIdx) : (s.advanceIndex x).mem = s.mem := rfl
@[simp] theorem State.advanceIndex_draws (s : State) (x : RegIdx) : (s.advanceIndex x).draws = s.draws := rfl
@[simp] theorem State.placeWord_v (s : State) (w : Word) : (s.placeWord w).v = s.v := rfl
@[simp] theorem State.placeWord_i (s : State) (w : Word) : (s.placeWord w).i = s.i := rfl
@[simp] theorem State.placeWord_pc (s : State) (w : Word) : (s.placeWord w).pc = s.pc := rfl
@[simp] theorem State.placeWord_stack (s : State) (w : Word) : (s.placeWord w).stack = s.stack := rfl
@[simp] theorem State.placeWord_dt (s : State) (w : Word) : (s.placeWord w).dt = s.dt := rfl
@[simp] theorem State.placeWord_st (s : State) (w : Word) : (s.placeWord w).st = s.st := rfl
@[simp] theorem State.placeWord_key (s : State) (w : Word) : (s.placeWord w).key = s.key := rfl
@[simp] theorem State.placeWord_fb (s : State) (w : Word) : (s.placeWord w).fb = s.fb := rfl
@[simp] theorem State.placeWord_mem (s : State) (w : Word) : (s.placeWord w).mem = memWriteBytes s.mem s.pc.toNat [wordHi w, wordLo w] := rfl
@[simp] theorem State.placeWord_draws (s : State) (w : Word) : (s.placeWord w).draws = s.draws := rfl

/-! ### writeVs: the V registers only -/

@[simp] theorem State.writeVs_i (s : State) (j : Nat) (bs : List Byte) : (s.writeVs j bs).i = s.i := by
  induction bs generalizing s j with
  | nil => rfl
  | cons b bs ih => simp only [State.writeVs]; split <;> simp [ih]

@[simp] theorem State.writeVs_pc (s : State) (j : Nat) (bs : List Byte) : (s.writeVs j bs).pc = s.pc := by
  induction bs generalizing s j with
  | nil => rfl
  | cons b bs ih => simp only [State.writeVs]; split <;> simp [ih]

@[simp] theorem State.writeVs_stack (s : State) (j : Nat) (bs : List Byte) : (s.writeVs j bs).stack = s.stack := by
  induction bs generalizing s j with
  | nil => rfl
  | cons b bs ih => simp only [State.writeVs]; split <;> simp [ih]

@[simp] theorem State.writeVs_dt (s : State) (j : Nat) (bs : List Byte) : (s.writeVs j bs).dt = s.dt := by
  induction bs generalizing s j with
  | nil => rfl
  | cons b bs ih => simp only [State.writeVs]; split <;> simp [ih]

@[simp] theorem State.writeVs_st (s : State) (j : Nat) (bs : List Byte) : (s.writeVs j bs).st = s.st := by
  induction bs generalizing s j with
  | nil => rfl
  | cons b bs ih => simp only [State.writeVs]; split <;> simp [ih]

@[simp] theorem State.writeVs_key (s : State) (j : Nat) (bs : List Byte) : (s.writeVs j bs).key = s.key := by
  induction bs generalizing s j with
  | nil => rfl
  | cons b bs ih => simp only [State.writeVs]; split <;> simp [ih]

@[simp] theorem State.writeVs_fb (s : State) (j : Nat) (bs : List Byte) : (s.writeVs j bs).fb = s.fb := by
  induction bs generalizing s j with
  | nil => rfl
  | cons b bs ih => simp only [State.writeVs]; split <;> simp [ih]

@[simp] theorem State.writeVs_mem (s : State) (j : Nat) (bs : List Byte) : (s.writeVs j bs).mem = s.mem := by
  induction bs generalizing s j with
  | nil => rfl
  | cons b bs ih => simp only [State.writeVs]; split <;> simp [ih]

@[simp] theorem State.writeVs_draws (s : State) (j : Nat) (bs : List Byte) : (s.writeVs j bs).draws = s.draws := by
  induction bs generalizing s j with
  | nil => rfl
  | cons b bs ih => simp only [State.writeVs]; split <;> simp [ih]

/-! ### Operations of the outside -/

@[simp] theorem opTick_v (s : State) : (opTick s).v = s.v := rfl
@[simp] theorem opTick_i (s : State) : (opTick s).i = s.i := rfl
@[simp] theorem opTick_pc (s : State) : (opTick s).pc = s.pc := rfl
@[simp] theorem opTick_stack (s : State) : (opTick s).stack = s.stack := rfl
@[simp] theorem opTick_dt (s : State) : (opTick s).dt = countDown s.dt := rfl
@[simp] theorem opTick_st (s : State) : (opTick s).st = countDown s.st := rfl
@[simp] theorem opTick_key (s : State) : (opTick s).key = s.key := rfl
@[simp] theorem opTick_fb (s : State) : (opTick s).fb = s.fb := rfl
@[simp] theorem opTick_mem (s : State) : (opTick s).mem = s.mem := rfl
@[simp] theorem opTick_draws (s : State) : (opTick s).draws = s.draws := rfl

/-- At the defaults the state after power-on is `State.reset`. -/
@[simp] theorem State.resetWith_default : State.resetWith Params.default = State.reset := by
  simp only [State.resetWith, resetMemory_default]; rfl

/-- At the defaults Reset gives `State.reset` but for the count of random bytes. -/
theorem opReset_eq (s : State) : opReset s = { State.reset with draws := s.draws } := by
  simp only [opReset, opResetWith, State.resetWith_default]

@[simp] theorem opResetWith_v (p : Params) (s : State) : (opResetWith p s).v = State.reset.v := rfl
@[simp] theorem opResetWith_i (p : Params) (s : State) : (opResetWith p s).i = State.reset.i := rfl
@[simp] theorem opResetWith_pc (p : Params) (s : State) : (opResetWith p s).pc = State.reset.pc := rfl
@[simp] theorem opResetWith_stack (p : Params) (s : State) : (opResetWith p s).stack = State.reset.stack := rfl
@[simp] theorem opResetWith_dt (p : Params) (s : State) : (opResetWith p s).dt = State.reset.dt := rfl
@[simp] theorem opResetWith_st (p : Params) (s : State) : (opResetWith p s).st = State.reset.st := rfl
@[simp] theorem opResetWith_key (p : Params) (s : State) : (opResetWith p s).key = State.reset.key := rfl
@[simp] theorem opResetWith_fb (p : Params) (s : State) : (opResetWith p s).fb = State.reset.fb := rfl
@[simp] theorem opResetWith_mem (p : Params) (s : State) : (opResetWith p s).mem = resetMemory p.fontRom := rfl
@[simp] theorem opResetWith_draws (p : Params) (s : State) : (opResetWith p s).draws = s.draws := rfl

@[simp] theorem opReset_v (s : State) : (opReset s).v = State.reset.v := rfl
@[simp] theorem opReset_i (s : State) : (opReset s).i = State.reset.i := rfl
@[simp] theorem opReset_pc (s : State) : (opReset s).pc = State.reset.pc := rfl
@[simp] theorem opReset_stack (s : State) : (opReset s).stack = State.reset.stack := rfl
@[simp] theorem opReset_dt (s : State) : (opReset s).dt = State.reset.dt := rfl
@[simp] theorem opReset_st (s : State) : (opReset s).st = State.reset.st := rfl
@[simp] theorem opReset_key (s : State) : (opReset s).key = State.reset.key := rfl
@[simp] theorem opReset_fb (s : State) : (opReset s).fb = State.reset.fb := rfl
@[simp] theorem opReset_mem (s : State) : (opReset s).mem = State.reset.mem := resetMemory_default
@[simp] theorem opReset_draws (s : State) : (opReset s).draws = s.draws := rfl

end Sys2Proof.Machine
end

