-- ==== Sys2Proof/Laws/Registers.lean ====
section
/-! SUPPORT. What reading a V register or a key gives after each operation that writes one, and the key scan. -/

-- One declaration at a time: many small ones at once need more threads than the check's memory limit leaves room for.
set_option Elab.async false

namespace Sys2Proof.Machine

/-! ### Reads after updates that write no V register -/

@[simp] theorem State.readV_writeI (s : State) (w : Word) (r : RegIdx) : (s.writeI w).readV r = s.readV r := rfl
@[simp] theorem State.readV_jump (s : State) (w : Word) (r : RegIdx) : (s.jump w).readV r = s.readV r := rfl
@[simp] theorem State.readV_advance (s : State) (r : RegIdx) : s.advance.readV r = s.readV r := rfl
@[simp] theorem State.readV_rewind (s : State) (r : RegIdx) : s.rewind.readV r = s.readV r := rfl
@[simp] theorem State.readV_push (s : State) (w : Word) (r : RegIdx) : (s.push w).readV r = s.readV r := rfl
@[simp] theorem State.readV_withStack (s : State) (l : List Word) (r : RegIdx) : (s.withStack l).readV r = s.readV r := rfl
@[simp] theorem State.readV_writeDT (s : State) (b : Byte) (r : RegIdx) : (s.writeDT b).readV r = s.readV r := rfl
@[simp] theorem State.readV_writeST (s : State) (b : Byte) (r : RegIdx) : (s.writeST b).readV r = s.readV r := rfl
@[simp] theorem State.readV_writeKey (s : State) (k : Nibble) (p : Bool) (r : RegIdx) :
    (s.writeKey k p).readV r = s.readV r := rfl
@[simp] theorem State.readV_writeFB (s : State) (g : Framebuffer) (r : RegIdx) : (s.writeFB g).readV r = s.readV r := rfl
@[simp] theorem State.readV_writeMem (s : State) (m : Memory) (r : RegIdx) : (s.writeMem m).readV r = s.readV r := rfl
@[simp] theorem State.readV_consumeRandom (s : State) (r : RegIdx) : s.consumeRandom.readV r = s.readV r := rfl
@[simp] theorem State.readV_advanceIndex (s : State) (x r : RegIdx) : (s.advanceIndex x).readV r = s.readV r := rfl
@[simp] theorem State.readV_placeWord (s : State) (w : Word) (r : RegIdx) : (s.placeWord w).readV r = s.readV r := rfl
@[simp] theorem State.readV_skipIf (s : State) (c : Bool) (r : RegIdx) : (s.skipIf c).readV r = s.readV r := by
  cases c <;> rfl

/-- A register is a function of the V file alone. -/
theorem State.readV_congr {s t : State} (h : t.v = s.v) (r : RegIdx) : t.readV r = s.readV r := by
  simp only [State.readV, h]

/-- The V file is determined by its sixteen registers. -/
theorem State.v_ext {s t : State} (h : ∀ r, t.readV r = s.readV r) : t.v = s.v := by
  apply Vector.ext
  intro j hj
  have := h (BitVec.ofNat 4 j)
  simpa [State.readV, Nat.mod_eq_of_lt hj] using this

/-! ### Reads after updates that write V registers -/

/-- V[r] after V[x] <- b. -/
@[simp] theorem State.readV_writeV (s : State) (x r : RegIdx) (b : Byte) :
    (s.writeV x b).readV r = if r = x then b else s.readV r := by
  simp only [State.readV, State.writeV, Vector.getElem_set, BitVec.toNat_inj, eq_comm]

/-- V[r] after a flag and a result were written: with x = 15 the result stays (spec/40_fetch_decode_execute.md R91). -/
@[simp] theorem State.readV_writeFlagThenResult (s : State) (x r : RegIdx) (flag result : Byte) :
    (s.writeFlagThenResult x flag result).readV r =
      if r = x then result else if r = flagReg then flag else s.readV r := by
  simp [State.writeFlagThenResult]

/-- V[r] after RND. -/
@[simp] theorem State.readV_randomAnd (s : State) (rnd : Byte) (x r : RegIdx) (nn : Byte) :
    (s.randomAnd rnd x nn).readV r = if r = x then rnd &&& nn else s.readV r :=
  s.readV_writeV x r _

/-- V[r] after the bytes of a list went to V[j], V[j+1], ... -/
theorem State.readV_writeVs (s : State) (j : Nat) (bs : List Byte) (h : j + bs.length ≤ 16) (r : RegIdx) :
    (s.writeVs j bs).readV r = if j ≤ r.toNat then (bs[r.toNat - j]?).getD (s.readV r) else s.readV r := by
  induction bs generalizing s j with
  | nil => simp [State.writeVs]
  | cons b bs ih =>
    simp only [List.length_cons] at h
    have hj : j < 16 := by omega
    have hr := r.isLt
    simp only [State.writeVs, hj, if_true]
    rw [ih _ _ (by omega), State.readV_writeV]
    have hx : r = BitVec.ofNat 4 j ↔ r.toNat = j := by
      rw [← BitVec.toNat_inj, BitVec.toNat_ofNat, Nat.mod_eq_of_lt (by omega)]
    simp only [hx]
    rcases Nat.lt_trichotomy r.toNat j with hlt | heq | hgt
    · simp [show ¬ j + 1 ≤ r.toNat by omega, show ¬ j ≤ r.toNat by omega, show ¬ r.toNat = j by omega]
    · simp [heq]
    · have hs : r.toNat - j = (r.toNat - (j + 1)) + 1 := by omega
      rw [hs]
      simp [show j + 1 ≤ r.toNat by omega, show j ≤ r.toNat by omega, show ¬ r.toNat = j by omega]

@[simp] theorem State.readVs_length (s : State) (n : Nat) : (s.readVs n).length = n := by simp [State.readVs]

/-- The entry at index `j` of the first `n` registers. -/
theorem State.readVs_getElem? (s : State) (n j : Nat) :
    (s.readVs n)[j]? = if j < n then some (s.readV (BitVec.ofNat 4 j)) else none := by
  by_cases h : j < n
  · simp [State.readVs, h]
  · simp [State.readVs, h]

/-! ### Keys -/

/-- KEY[k] after KEY[j] <- p. -/
@[simp] theorem State.readKey_writeKey (s : State) (j k : Nibble) (p : Bool) :
    (s.writeKey j p).readKey k = if k = j then p else s.readKey k := by
  simp only [State.readKey, State.writeKey, Vector.getElem_set, BitVec.toNat_inj, eq_comm]

/-- The scan finds no key exactly when none is pressed (spec/45_keypad_and_timers.md R172). -/
theorem State.lowestKey_eq_none (s : State) : s.lowestKey = none ↔ ∀ k : Nibble, s.readKey k = false := by
  simp only [State.lowestKey, List.find?_eq_none, List.mem_range, Bool.not_eq_true]
  constructor
  · intro h k
    simpa using h k.toNat k.isLt
  · intro h j _
    exact h _

/-- The scan finds the least pressed key. -/
theorem State.lowestKey_eq_some (s : State) (k : Nibble) :
    s.lowestKey = some k.toNat ↔ s.readKey k = true ∧ ∀ j : Nibble, j.toNat < k.toNat → s.readKey j = false := by
  have hk := k.isLt
  simp only [State.lowestKey, List.find?_range_eq_some, List.mem_range]
  constructor
  · rintro ⟨h1, _, h2⟩
    refine ⟨by simpa using h1, fun j hj => ?_⟩
    have := h2 j.toNat hj
    simpa using this
  · rintro ⟨h1, h2⟩
    refine ⟨by simpa using h1, hk, fun j hj => ?_⟩
    have := h2 (BitVec.ofNat 4 j) (by simp; omega)
    simpa using this

end Sys2Proof.Machine
end

