-- ==== Sys2Proof/Laws/Exec.lean ====
section
/-! SUPPORT. What a step does with each word: the instruction's meaning on the advanced state, or the no-op. -/

-- One declaration at a time: many small ones at once need more threads than the check's memory limit leaves room for.
set_option Elab.async false

namespace Sys2Proof.Machine

/-! ### One arm per instruction -/

@[simp] theorem exec_cls (s : State) : exec .cls s = execCls s := rfl
@[simp] theorem exec_ret (s : State) : exec .ret s = execRet s := rfl
@[simp] theorem exec_jp (nnn : Addr) (s : State) : exec (.jp nnn) s = execJp nnn s := rfl
@[simp] theorem exec_call (nnn : Addr) (s : State) : exec (.call nnn) s = execCall nnn s := rfl
@[simp] theorem exec_seImm (x : RegIdx) (nn : Byte) (s : State) : exec (.seImm x nn) s = execSeImm x nn s := rfl
@[simp] theorem exec_sneImm (x : RegIdx) (nn : Byte) (s : State) : exec (.sneImm x nn) s = execSneImm x nn s := rfl
@[simp] theorem exec_seReg (x : RegIdx) (y : RegIdx) (s : State) : exec (.seReg x y) s = execSeReg x y s := rfl
@[simp] theorem exec_ldImm (x : RegIdx) (nn : Byte) (s : State) : exec (.ldImm x nn) s = execLdImm x nn s := rfl
@[simp] theorem exec_addImm (x : RegIdx) (nn : Byte) (s : State) : exec (.addImm x nn) s = execAddImm x nn s := rfl
@[simp] theorem exec_ldReg (x : RegIdx) (y : RegIdx) (s : State) : exec (.ldReg x y) s = execLdReg x y s := rfl
@[simp] theorem exec_orReg (x : RegIdx) (y : RegIdx) (s : State) : exec (.orReg x y) s = execOr x y s := rfl
@[simp] theorem exec_andReg (x : RegIdx) (y : RegIdx) (s : State) : exec (.andReg x y) s = execAnd x y s := rfl
@[simp] theorem exec_xorReg (x : RegIdx) (y : RegIdx) (s : State) : exec (.xorReg x y) s = execXor x y s := rfl
@[simp] theorem exec_addReg (x : RegIdx) (y : RegIdx) (s : State) : exec (.addReg x y) s = execAddReg x y s := rfl
@[simp] theorem exec_sub (x : RegIdx) (y : RegIdx) (s : State) : exec (.sub x y) s = execSub x y s := rfl
@[simp] theorem exec_shr (x : RegIdx) (s : State) : exec (.shr x) s = execShr x s := rfl
@[simp] theorem exec_subn (x : RegIdx) (y : RegIdx) (s : State) : exec (.subn x y) s = execSubn x y s := rfl
@[simp] theorem exec_shl (x : RegIdx) (s : State) : exec (.shl x) s = execShl x s := rfl
@[simp] theorem exec_sneReg (x : RegIdx) (y : RegIdx) (s : State) : exec (.sneReg x y) s = execSneReg x y s := rfl
@[simp] theorem exec_ldI (nnn : Addr) (s : State) : exec (.ldI nnn) s = execLdI nnn s := rfl
@[simp] theorem exec_jpV0 (nnn : Addr) (s : State) : exec (.jpV0 nnn) s = execJpV0 nnn s := rfl
@[simp] theorem exec_rnd (x : RegIdx) (nn : Byte) (s : State) : exec (.rnd x nn) s = execRnd x nn s := rfl
@[simp] theorem exec_drw (x : RegIdx) (y : RegIdx) (n : Nibble) (s : State) : exec (.drw x y n) s = execDrw x y n s := rfl
@[simp] theorem exec_skp (x : RegIdx) (s : State) : exec (.skp x) s = execSkp x s := rfl
@[simp] theorem exec_sknp (x : RegIdx) (s : State) : exec (.sknp x) s = execSknp x s := rfl
@[simp] theorem exec_ldVxDt (x : RegIdx) (s : State) : exec (.ldVxDt x) s = execLdVxDt x s := rfl
@[simp] theorem exec_ldVxKey (x : RegIdx) (s : State) : exec (.ldVxKey x) s = execLdVxKey x s := rfl
@[simp] theorem exec_ldDtVx (x : RegIdx) (s : State) : exec (.ldDtVx x) s = execLdDtVx x s := rfl
@[simp] theorem exec_ldStVx (x : RegIdx) (s : State) : exec (.ldStVx x) s = execLdStVx x s := rfl
@[simp] theorem exec_addI (x : RegIdx) (s : State) : exec (.addI x) s = execAddI x s := rfl
@[simp] theorem exec_ldF (x : RegIdx) (s : State) : exec (.ldF x) s = execLdF x s := rfl
@[simp] theorem exec_ldB (x : RegIdx) (s : State) : exec (.ldB x) s = execLdB x s := rfl
@[simp] theorem exec_dump (x : RegIdx) (s : State) : exec (.dump x) s = execDump x s := rfl
@[simp] theorem exec_load (x : RegIdx) (s : State) : exec (.load x) s = execLoad x s := rfl

/-! ### The step -/

/-- A step on a defined word. -/
theorem step_of_decoded {s : State} {i : Instr} (h : decodeWord (fetchWord s) = .ok i) : step s = exec i s.advance := by
  simp only [step, runFetched, h]

/-- A step on an unknown word. -/
theorem step_of_unknown {s : State} {r : Reject} (h : decodeWord (fetchWord s) = .error r) : step s = .next s.advance := by
  simp only [step, runFetched, h, execUnknown]

/-- Everything a step that answers can have done: executed the decoded instruction, or advanced over an unknown word. -/
theorem step_cases {s : State} {o : Result} (h : step s = o) :
    (∃ i, decodeWord (fetchWord s) = .ok i ∧ exec i s.advance = o) ∨
      (∃ r, decodeWord (fetchWord s) = .error r ∧ o = .next s.advance) := by
  cases hd : decodeWord (fetchWord s) with
  | ok i => exact .inl ⟨i, rfl, by rw [← step_of_decoded hd, h]⟩
  | error r => exact .inr ⟨r, rfl, by rw [← h, step_of_unknown hd]⟩

/-- The fetched word depends on PC and memory alone. -/
theorem fetchWord_congr {s t : State} (hp : t.pc = s.pc) (hm : t.mem = s.mem) : fetchWord t = fetchWord s := by
  simp only [fetchWord, hp, hm]

/-! ### CALL and RET -/

/-- CALL under a depth that is not reached pushes the advanced PC. -/
theorem execCallWith_of_not_full {d : Option Nat} {s : State} (h : s.stackFull d = false) (nnn : Addr) :
    execCallWith d nnn s = .next ((s.push s.pc).jump (zextAddr nnn)) := by
  simp [execCallWith, h]

/-- With the default depth CALL always completes (spec/41_control_flow.md R102). -/
@[simp] theorem execCall_eq (nnn : Addr) (s : State) : execCall nnn s = .next ((s.push s.pc).jump (zextAddr nnn)) := rfl

/-- RET on an empty stack. -/
theorem execRet_of_nil {s : State} (h : s.stack = []) : execRet s = .fault (.stackUnderflow (s.pc - 2#16)) := by
  simp only [execRet, h, raiseFault]

/-- RET on a stack with an entry. -/
theorem execRet_of_cons {s : State} {w : Word} {rest : List Word} (h : s.stack = w :: rest) :
    execRet s = .next ((s.withStack rest).jump w) := by
  simp only [execRet, h]

/-! ### Parameters -/

/-- Whatever the parameters, an instruction that is no CALL is the one of `exec`. -/
theorem execWith_of_not_call (p : Params) {i : Instr} (h : ∀ nnn, i ≠ .call nnn) (s : State) : execWith p i s = exec i s := by
  cases i <;> first | rfl | exact absurd rfl (h _)

/-- At the defaults an instruction is the one of `exec`. -/
@[simp] theorem execWith_default (i : Instr) (s : State) : execWith Params.default i s = exec i s := by cases i <;> rfl

/-- A step on a defined word under given parameters. -/
theorem stepWith_of_decoded (p : Params) {s : State} {i : Instr} (h : decodeWord (fetchWord s) = .ok i) :
    stepWith p s = execWith p i s.advance := by
  simp only [stepWith, runFetched, h]

/-- A step on an unknown word under given parameters. -/
theorem stepWith_of_unknown (p : Params) {s : State} {r : Reject} (h : decodeWord (fetchWord s) = .error r) :
    stepWith p s = .next s.advance := by
  simp only [stepWith, runFetched, h, execUnknown]

/-- At the defaults the step is `step`. -/
@[simp] theorem stepWith_default (s : State) : stepWith Params.default s = step s := by
  rw [stepWith, step, funext (fun i => funext (execWith_default i))]

/-! ### LD Vx, K -/

/-- With no key pressed PC goes back and nothing else changes. -/
theorem execLdVxKey_of_none {s : State} (h : s.lowestKey = none) (x : RegIdx) : execLdVxKey x s = .next s.rewind := by
  simp only [execLdVxKey, h]

/-- With a key pressed the lowest index is stored. -/
theorem execLdVxKey_of_some {s : State} {k : Nat} (h : s.lowestKey = some k) (x : RegIdx) :
    execLdVxKey x s = .next (s.writeV x (BitVec.ofNat 8 k)) := by
  simp only [execLdVxKey, h]

/-! ### The outside -/

@[simp] theorem performWith_reset (p : Params) (s : State) : performWith p .reset s = .next (opResetWith p s) := rfl
@[simp] theorem performWith_load (p : Params) (bytes : List Byte) (s : State) :
    performWith p (.load bytes) s = .next (opLoadWith p.maxProgramLen bytes s).state := rfl
@[simp] theorem performWith_step (p : Params) (s : State) : performWith p .step s = stepWith p s := rfl
@[simp] theorem performWith_tick (p : Params) (s : State) : performWith p .tick s = .next (opTick s) := rfl
@[simp] theorem performWith_keySet (p : Params) (k : Nat) (s : State) : performWith p (.keySet k) s = opKeySet k s := rfl
@[simp] theorem performWith_keyClear (p : Params) (k : Nat) (s : State) : performWith p (.keyClear k) s = opKeyClear k s := rfl
@[simp] theorem perform_reset (s : State) : perform .reset s = .next (opReset s) := rfl
@[simp] theorem perform_load (bytes : List Byte) (s : State) : perform (.load bytes) s = .next (opLoad bytes s).state := rfl
@[simp] theorem perform_step (s : State) : perform .step s = step s := stepWith_default s
@[simp] theorem perform_tick (s : State) : perform .tick s = .next (opTick s) := rfl
@[simp] theorem perform_keySet (k : Nat) (s : State) : perform (.keySet k) s = opKeySet k s := rfl
@[simp] theorem perform_keyClear (k : Nat) (s : State) : perform (.keyClear k) s = opKeyClear k s := rfl

/-- An operation on a running core, under given parameters. -/
theorem applyOpWith_running (p : Params) (op : Op) (s : State) : applyOpWith p op (.running s) = match performWith p op s with
    | .next t => .ok (.running t)
    | .fault f => .ok (.faulted f s.draws)
    | .refused r => .error r := rfl

/-- An operation on a running core. -/
theorem applyOp_running (op : Op) (s : State) : applyOp op (.running s) = match perform op s with
    | .next t => .ok (.running t)
    | .fault f => .ok (.faulted f s.draws)
    | .refused r => .error r := rfl

/-- A schedule under given parameters runs its first operation and then the rest. -/
theorem runOpsWith_cons (p : Params) (op : Op) (ops : List Op) (c : Condition) :
    runOpsWith p (op :: ops) c = match applyOpWith p op c with
      | .ok c' => runOpsWith p ops c'
      | .error r => .error r := rfl

/-- A schedule runs its first operation and then the rest. -/
theorem runOps_cons (op : Op) (ops : List Op) (c : Condition) : runOps (op :: ops) c = match applyOp op c with
    | .ok c' => runOps ops c'
    | .error r => .error r := rfl

/-- Load succeeds exactly on an image that is well formed under its bound (spec/70_reset_and_hazards.md R233, R234). -/
@[simp] theorem opLoadWith_success (n : Nat) (bytes : List Byte) (s : State) :
    (opLoadWith n bytes s).success = wfImage n bytes := by
  unfold opLoadWith; split <;> simp_all

/-- An accepted image is stored from 0x200 on. -/
theorem opLoadWith_of_wf {n : Nat} {bytes : List Byte} (h : wfImage n bytes = true) (s : State) :
    opLoadWith n bytes s = ⟨true, s.writeMem (memWriteBytes s.mem progBase bytes)⟩ := by
  simp [opLoadWith, h]

/-- A refused image changes nothing. -/
theorem opLoadWith_of_not_wf {n : Nat} {bytes : List Byte} (h : wfImage n bytes = false) (s : State) :
    opLoadWith n bytes s = ⟨false, s⟩ := by
  simp [opLoadWith, h]

/-- KeySet and KeyClear with an index the port can carry. -/
theorem opKeySet_of_lt {k : Nat} (h : k < 16) (s : State) : opKeySet k s = .next (s.writeKey (BitVec.ofNat 4 k) true) := by
  simp [opKeySet, wfKeyIndex, h]

theorem opKeyClear_of_lt {k : Nat} (h : k < 16) (s : State) :
    opKeyClear k s = .next (s.writeKey (BitVec.ofNat 4 k) false) := by
  simp [opKeyClear, wfKeyIndex, h]

end Sys2Proof.Machine
end

