-- ==== Sys2Proof/Laws/PerInstr.lean ====
section
/-! SUPPORT. The statement made for every instruction, one lemma per constructor: the encoded word passes the test of the
instruction's own row of the opcode table (spec/30_encoding.md R75). -/

-- One declaration at a time: many small ones at once need more threads than the check's memory limit leaves room for.
set_option Elab.async false

namespace Sys2Proof.Laws.EncodedInRow

/-- Some row of the table has the instruction's mnemonic and its test accepts the encoded word. -/
def Statement (i : Instr) : Prop := ∃ r ∈ opcodeTable, r.mnemonic = i.mnemonic ∧ r.matches (encode i) = true

/-- Masking off the address field of a format A word leaves the group. -/
theorem maskA (op : Nibble) (nnn : Addr) : encodeA op nnn &&& 0xF000#16 = encodeA op 0#12 := by
  apply BitVec.eq_of_getLsbD_eq
  intro i hi
  simp only [encodeA, BitVec.getLsbD_and, BitVec.getLsbD_append]
  by_cases h : i < 12
  · have : ∀ j : Fin 12, (0xF000#16).getLsbD j.val = false := by decide
    simp [h, this ⟨i, h⟩]
  · have : ∀ j : Fin 4, (0xF000#16).getLsbD (j.val + 12) = true := by decide
    have h1 := this ⟨i - 12, by omega⟩
    simp only [show i - 12 + 12 = i by omega] at h1
    simp [h, h1]

/-- Masking off X of a format XS or S word leaves the group and the low byte. -/
theorem maskXNN (op : Nibble) (x : RegIdx) (nn : Byte) : encodeXNN op x nn &&& 0xF0FF#16 = encodeXNN op 0#4 nn := by
  apply BitVec.eq_of_getLsbD_eq
  intro i hi
  simp only [encodeXNN, BitVec.getLsbD_and, BitVec.getLsbD_append]
  by_cases h8 : i < 8
  · have : ∀ j : Fin 8, (0xF0FF#16).getLsbD j.val = true := by decide
    simp [h8, show i < 12 by omega, this ⟨i, h8⟩]
  · by_cases h : i < 12
    · have : ∀ j : Fin 4, (0xF0FF#16).getLsbD (j.val + 8) = false := by decide
      have h1 := this ⟨i - 8, by omega⟩
      simp only [show i - 8 + 8 = i by omega] at h1
      simp [h, h8, h1]
    · have : ∀ j : Fin 4, (0xF0FF#16).getLsbD (j.val + 12) = true := by decide
      have h1 := this ⟨i - 12, by omega⟩
      simp only [show i - 12 + 12 = i by omega] at h1
      simp [h, h1]

/-- Masking off X and Y of a group 8 word leaves the group and the low nibble. -/
theorem maskXYN (op : Nibble) (x y : RegIdx) (n : Nibble) : encodeXYN op x y n &&& 0xF00F#16 = encodeXYN op 0#4 0#4 n := by
  apply BitVec.eq_of_getLsbD_eq
  intro i hi
  simp only [encodeXYN, BitVec.getLsbD_and, BitVec.getLsbD_append]
  by_cases h4 : i < 4
  · have : ∀ j : Fin 4, (0xF00F#16).getLsbD j.val = true := by decide
    simp [h4, show i < 12 by omega, show i < 8 by omega, this ⟨i, h4⟩]
  · by_cases h : i < 12
    · have : ∀ j : Fin 8, (0xF00F#16).getLsbD (j.val + 4) = false := by decide
      have h1 := this ⟨i - 4, by omega⟩
      simp only [show i - 4 + 4 = i by omega] at h1
      by_cases h8 : i < 8 <;> simp [h, h8, h4, h1]
    · have : ∀ j : Fin 4, (0xF00F#16).getLsbD (j.val + 12) = true := by decide
      have h1 := this ⟨i - 12, by omega⟩
      simp only [show i - 12 + 12 = i by omega] at h1
      simp [h, h1]

/-- From a row of the table and its test. -/
theorem of_row {i : Instr} (r : Row) (hr : r ∈ opcodeTable) (hn : r.mnemonic = i.mnemonic)
    (h : encode i &&& r.mask = r.value) : Statement i :=
  ⟨r, hr, hn, by simp [Row.matches, h]⟩

theorem cls : Statement .cls :=
  of_row ⟨"CLS", 0x00E0#16, 0xF0FF#16⟩ (by decide) rfl ((maskXNN ..).trans (by decide))
theorem ret : Statement .ret :=
  of_row ⟨"RET", 0x00EE#16, 0xF0FF#16⟩ (by decide) rfl ((maskXNN ..).trans (by decide))
theorem jp (nnn : Addr) : Statement (.jp nnn) :=
  of_row ⟨"JP_NNN", 0x1000#16, 0xF000#16⟩ (by decide) rfl ((maskA ..).trans (by decide))
theorem call (nnn : Addr) : Statement (.call nnn) :=
  of_row ⟨"CALL_NNN", 0x2000#16, 0xF000#16⟩ (by decide) rfl ((maskA ..).trans (by decide))
theorem seImm (x : RegIdx) (nn : Byte) : Statement (.seImm x nn) :=
  of_row ⟨"SE_Vx__NN", 0x3000#16, 0xF000#16⟩ (by decide) rfl ((maskA ..).trans (by decide))
theorem sneImm (x : RegIdx) (nn : Byte) : Statement (.sneImm x nn) :=
  of_row ⟨"SNE_Vx__NN", 0x4000#16, 0xF000#16⟩ (by decide) rfl ((maskA ..).trans (by decide))
theorem seReg (x y : RegIdx) : Statement (.seReg x y) :=
  of_row ⟨"SE_Vx__Vy", 0x5000#16, 0xF000#16⟩ (by decide) rfl ((maskA ..).trans (by decide))
theorem ldImm (x : RegIdx) (nn : Byte) : Statement (.ldImm x nn) :=
  of_row ⟨"LD_Vx__NN", 0x6000#16, 0xF000#16⟩ (by decide) rfl ((maskA ..).trans (by decide))
theorem addImm (x : RegIdx) (nn : Byte) : Statement (.addImm x nn) :=
  of_row ⟨"ADD_Vx__NN", 0x7000#16, 0xF000#16⟩ (by decide) rfl ((maskA ..).trans (by decide))
theorem ldReg (x y : RegIdx) : Statement (.ldReg x y) :=
  of_row ⟨"LD_Vx__Vy", 0x8000#16, 0xF00F#16⟩ (by decide) rfl ((maskXYN ..).trans (by decide))
theorem orReg (x y : RegIdx) : Statement (.orReg x y) :=
  of_row ⟨"OR_Vx__Vy", 0x8001#16, 0xF00F#16⟩ (by decide) rfl ((maskXYN ..).trans (by decide))
theorem andReg (x y : RegIdx) : Statement (.andReg x y) :=
  of_row ⟨"AND_Vx__Vy", 0x8002#16, 0xF00F#16⟩ (by decide) rfl ((maskXYN ..).trans (by decide))
theorem xorReg (x y : RegIdx) : Statement (.xorReg x y) :=
  of_row ⟨"XOR_Vx__Vy", 0x8003#16, 0xF00F#16⟩ (by decide) rfl ((maskXYN ..).trans (by decide))
theorem addReg (x y : RegIdx) : Statement (.addReg x y) :=
  of_row ⟨"ADD_Vx__Vy", 0x8004#16, 0xF00F#16⟩ (by decide) rfl ((maskXYN ..).trans (by decide))
theorem sub (x y : RegIdx) : Statement (.sub x y) :=
  of_row ⟨"SUB_Vx__Vy", 0x8005#16, 0xF00F#16⟩ (by decide) rfl ((maskXYN ..).trans (by decide))
theorem shr (x : RegIdx) : Statement (.shr x) :=
  of_row ⟨"SHR_Vx", 0x8006#16, 0xF00F#16⟩ (by decide) rfl ((maskXYN ..).trans (by decide))
theorem subn (x y : RegIdx) : Statement (.subn x y) :=
  of_row ⟨"SUBN_Vx__Vy", 0x8007#16, 0xF00F#16⟩ (by decide) rfl ((maskXYN ..).trans (by decide))
theorem shl (x : RegIdx) : Statement (.shl x) :=
  of_row ⟨"SHL_Vx", 0x800E#16, 0xF00F#16⟩ (by decide) rfl ((maskXYN ..).trans (by decide))
theorem sneReg (x y : RegIdx) : Statement (.sneReg x y) :=
  of_row ⟨"SNE_Vx__Vy", 0x9000#16, 0xF000#16⟩ (by decide) rfl ((maskA ..).trans (by decide))
theorem ldI (nnn : Addr) : Statement (.ldI nnn) :=
  of_row ⟨"LD_I__NNN", 0xA000#16, 0xF000#16⟩ (by decide) rfl ((maskA ..).trans (by decide))
theorem jpV0 (nnn : Addr) : Statement (.jpV0 nnn) :=
  of_row ⟨"JP_V0__NNN", 0xB000#16, 0xF000#16⟩ (by decide) rfl ((maskA ..).trans (by decide))
theorem rnd (x : RegIdx) (nn : Byte) : Statement (.rnd x nn) :=
  of_row ⟨"RND_Vx__NN", 0xC000#16, 0xF000#16⟩ (by decide) rfl ((maskA ..).trans (by decide))
theorem drw (x y : RegIdx) (n : Nibble) : Statement (.drw x y n) :=
  of_row ⟨"DRW_Vx__Vy__N", 0xD000#16, 0xF000#16⟩ (by decide) rfl ((maskA ..).trans (by decide))
theorem skp (x : RegIdx) : Statement (.skp x) :=
  of_row ⟨"SKP_Vx", 0xE09E#16, 0xF0FF#16⟩ (by decide) rfl ((maskXNN ..).trans (by decide))
theorem sknp (x : RegIdx) : Statement (.sknp x) :=
  of_row ⟨"SKNP_Vx", 0xE0A1#16, 0xF0FF#16⟩ (by decide) rfl ((maskXNN ..).trans (by decide))
theorem ldVxDt (x : RegIdx) : Statement (.ldVxDt x) :=
  of_row ⟨"LD_Vx__DT", 0xF007#16, 0xF0FF#16⟩ (by decide) rfl ((maskXNN ..).trans (by decide))
theorem ldVxKey (x : RegIdx) : Statement (.ldVxKey x) :=
  of_row ⟨"LD_Vx__K", 0xF00A#16, 0xF0FF#16⟩ (by decide) rfl ((maskXNN ..).trans (by decide))
theorem ldDtVx (x : RegIdx) : Statement (.ldDtVx x) :=
  of_row ⟨"LD_DT__Vx", 0xF015#16, 0xF0FF#16⟩ (by decide) rfl ((maskXNN ..).trans (by decide))
theorem ldStVx (x : RegIdx) : Statement (.ldStVx x) :=
  of_row ⟨"LD_ST__Vx", 0xF018#16, 0xF0FF#16⟩ (by decide) rfl ((maskXNN ..).trans (by decide))
theorem addI (x : RegIdx) : Statement (.addI x) :=
  of_row ⟨"ADD_I__Vx", 0xF01E#16, 0xF0FF#16⟩ (by decide) rfl ((maskXNN ..).trans (by decide))
theorem ldF (x : RegIdx) : Statement (.ldF x) :=
  of_row ⟨"LD_F__Vx", 0xF029#16, 0xF0FF#16⟩ (by decide) rfl ((maskXNN ..).trans (by decide))
theorem ldB (x : RegIdx) : Statement (.ldB x) :=
  of_row ⟨"LD_B__Vx", 0xF033#16, 0xF0FF#16⟩ (by decide) rfl ((maskXNN ..).trans (by decide))
theorem dump (x : RegIdx) : Statement (.dump x) :=
  of_row ⟨"LD__I___Vx", 0xF055#16, 0xF0FF#16⟩ (by decide) rfl ((maskXNN ..).trans (by decide))
theorem load (x : RegIdx) : Statement (.load x) :=
  of_row ⟨"LD_Vx___I", 0xF065#16, 0xF0FF#16⟩ (by decide) rfl ((maskXNN ..).trans (by decide))

end Sys2Proof.Laws.EncodedInRow
end

