-- ==== Sys2Proof/Tests/Slice0.lean ====
section
/-! SUPPORT. Tests: the well-formedness smoke test, one written-out word per constructor, at most two one-step tests per
instruction, and a witness for the hypotheses of each statement. Expected results are those of spec/95_test_vectors.md (the
vector's id stands in the comment) or worked out by hand from the rule named. -/

-- One declaration at a time: many small ones at once need more threads than the check's memory limit leaves room for.
set_option Elab.async false

namespace Sys2Proof.Tests

open Sys2Proof.Machine Sys2Proof.Safety

/-! ### Helpers -/

/-- The reset state with some V registers set. -/
def regs (l : List (RegIdx × Byte)) : State := l.foldl (fun s p => s.writeV p.1 p.2) State.reset

/-- What is seen of the next state, if there is one. -/
def seen {α : Type} (r : Result) (f : State → α) : Option α :=
  match r with
  | .next t => some (f t)
  | _ => none

/-- The fault, if the outcome is one. -/
def faultOf (r : Result) : Option Fault :=
  match r with
  | .fault f => some f
  | _ => none

/-- One step of a state with the word placed at PC, seen through `f`. -/
def stepSeen {α : Type} (w : Nat) (s : State) (f : State → α) : Option α := seen (step (s.withFetchWord 16 w)) f

/-- Bytes placed in memory. -/
def bytesAt (s : State) (a : Nat) (bs : List Byte) : State := s.writeMem (memWriteBytes s.mem a bs)

/-! ### Well-formedness smoke test: one ill-formed term for each check -/

theorem test_wf_accepts_extreme_operands : (Instr.drw 0xF#4 0xF#4 0x0#4).wf = true := by decide
theorem test_wf_refuses_key_sixteen : wfKeyIndex 15 = true ∧ wfKeyIndex 16 = false := by decide
theorem test_wf_refuses_empty_image : wfImage 3583 [] = false ∧ wfImage 3583 [0xAB#8] = true := by decide
theorem test_wf_refuses_long_image : wfImage 2 [1#8, 2#8] = true ∧ wfImage 2 [1#8, 2#8, 3#8] = false := by decide
theorem test_wf_refuses_unsorted_memory : ¬ Memory.wf [(0x301, 1#8), (0x300, 1#8)] := by decide
theorem test_wf_refuses_repeated_address : ¬ Memory.wf [(0x300, 1#8), (0x300, 2#8)] := by decide
theorem test_wf_refuses_address_outside : ¬ Memory.wf [(0x1000, 1#8)] := by decide
theorem test_wf_refuses_listed_blank : ¬ Memory.wf [(0x300, 0#8)] ∧ ¬ Memory.wf [(0x000, 0xF0#8)] := by decide
theorem test_wf_accepts_changed_bytes : Memory.wf [(0x000, 0#8), (0x300, 1#8)] := by decide

/-! ### Decoding: one word per constructor, written out from its encoding (spec/30_encoding.md R75, its fields R71) -/

theorem test_decode_cls : decodeWord 0b0000_1010_1110_0000#16 = .ok (.cls) := by decide
theorem test_decode_ret : decodeWord 0b0000_0111_1110_1110#16 = .ok (.ret) := by decide
theorem test_decode_jp : decodeWord 0b0001_1010_1011_1100#16 = .ok (.jp 0xABC#12) := by decide
theorem test_decode_call : decodeWord 0b0010_0011_0000_0000#16 = .ok (.call 0x300#12) := by decide
theorem test_decode_seImm : decodeWord 0b0011_1010_0000_0001#16 = .ok (.seImm 0xA#4 0x01#8) := by decide
theorem test_decode_sneImm : decodeWord 0b0100_0011_0010_1010#16 = .ok (.sneImm 0x3#4 0x2A#8) := by decide
theorem test_decode_seReg : decodeWord 0b0101_0001_0010_0111#16 = .ok (.seReg 0x1#4 0x2#4) := by decide
theorem test_decode_ldImm : decodeWord 0b0110_1010_0100_0010#16 = .ok (.ldImm 0xA#4 0x42#8) := by decide
theorem test_decode_addImm : decodeWord 0b0111_0010_0010_0000#16 = .ok (.addImm 0x2#4 0x20#8) := by decide
theorem test_decode_ldReg : decodeWord 0b1000_1111_0001_0000#16 = .ok (.ldReg 0xF#4 0x1#4) := by decide
theorem test_decode_orReg : decodeWord 0b1000_0010_0001_0001#16 = .ok (.orReg 0x2#4 0x1#4) := by decide
theorem test_decode_andReg : decodeWord 0b1000_0010_0001_0010#16 = .ok (.andReg 0x2#4 0x1#4) := by decide
theorem test_decode_xorReg : decodeWord 0b1000_0010_0001_0011#16 = .ok (.xorReg 0x2#4 0x1#4) := by decide
theorem test_decode_addReg : decodeWord 0b1000_0000_1111_0100#16 = .ok (.addReg 0x0#4 0xF#4) := by decide
theorem test_decode_sub : decodeWord 0b1000_1010_1011_0101#16 = .ok (.sub 0xA#4 0xB#4) := by decide
theorem test_decode_shr : decodeWord 0b1000_0100_1010_0110#16 = .ok (.shr 0x4#4) := by decide
theorem test_decode_subn : decodeWord 0b1000_1010_1011_0111#16 = .ok (.subn 0xA#4 0xB#4) := by decide
theorem test_decode_shl : decodeWord 0b1000_0100_1010_1110#16 = .ok (.shl 0x4#4) := by decide
theorem test_decode_sneReg : decodeWord 0b1001_0001_0010_1111#16 = .ok (.sneReg 0x1#4 0x2#4) := by decide
theorem test_decode_ldI : decodeWord 0b1010_0010_1111_0000#16 = .ok (.ldI 0x2F0#12) := by decide
theorem test_decode_jpV0 : decodeWord 0b1011_0010_0001_0000#16 = .ok (.jpV0 0x210#12) := by decide
theorem test_decode_rnd : decodeWord 0b1100_0011_0000_1111#16 = .ok (.rnd 0x3#4 0x0F#8) := by decide
theorem test_decode_drw : decodeWord 0b1101_0000_0001_0101#16 = .ok (.drw 0x0#4 0x1#4 0x5#4) := by decide
theorem test_decode_skp : decodeWord 0b1110_0010_1001_1110#16 = .ok (.skp 0x2#4) := by decide
theorem test_decode_sknp : decodeWord 0b1110_0010_1010_0001#16 = .ok (.sknp 0x2#4) := by decide
theorem test_decode_ldVxDt : decodeWord 0b1111_0100_0000_0111#16 = .ok (.ldVxDt 0x4#4) := by decide
theorem test_decode_ldVxKey : decodeWord 0b1111_0011_0000_1010#16 = .ok (.ldVxKey 0x3#4) := by decide
theorem test_decode_ldDtVx : decodeWord 0b1111_0100_0001_0101#16 = .ok (.ldDtVx 0x4#4) := by decide
theorem test_decode_ldStVx : decodeWord 0b1111_0100_0001_1000#16 = .ok (.ldStVx 0x4#4) := by decide
theorem test_decode_addI : decodeWord 0b1111_0001_0001_1110#16 = .ok (.addI 0x1#4) := by decide
theorem test_decode_ldF : decodeWord 0b1111_0000_0010_1001#16 = .ok (.ldF 0x0#4) := by decide
theorem test_decode_ldB : decodeWord 0b1111_0000_0011_0011#16 = .ok (.ldB 0x0#4) := by decide
theorem test_decode_dump : decodeWord 0b1111_0010_0101_0101#16 = .ok (.dump 0x2#4) := by decide
theorem test_decode_load : decodeWord 0b1111_0001_0110_0101#16 = .ok (.load 0x1#4) := by decide

/-! Unknown words (TU1, TU6, TU9, TU13) and a byte list too short. -/

theorem test_decode_unknown_group0 : decodeWord 0x0000#16 = .error (.group0 0x00#8) := by decide
theorem test_decode_unknown_group8 : decodeWord 0x8AB8#16 = .error (.group8 0x8#4) := by decide
theorem test_decode_unknown_groupE : decodeWord 0xE09F#16 = .error (.groupE 0x9F#8) := by decide
theorem test_decode_unknown_groupF : decodeWord 0xF075#16 = .error (.groupF 0x75#8) := by decide
theorem test_decode_truncated : decodeBytes [0x12#8] = .error .truncated := by decide
theorem test_decode_bytes_big_endian : decodeBytes [0x12#8, 0x34#8, 0x99#8] = .ok (.jp 0x234#12, [0x99#8]) := by decide
theorem test_decode_table_word : decodeTableWord 16 0xD015 = some (.drw 0#4 1#4 5#4) ∧ decodeTableWord 16 0x0000 = none := by
  decide

/-! ### Control flow -/

-- TC1, TC2
theorem test_jp : stepSeen 0x1ABC State.reset (·.pc) = some 0x0ABC#16 := by decide
theorem test_jp_odd : stepSeen 0x1201 State.reset (·.pc) = some 0x0201#16 := by decide
-- TC5, TC7
theorem test_call : stepSeen 0x2300 { State.reset with pc := 0x0250#16, stack := [0x0202#16] } (fun t => (t.pc, t.stackSnapshot)) =
    some (0x0300#16, [0x0202#16, 0x0252#16]) := by decide
theorem test_call_top : stepSeen 0x2300 { State.reset with pc := 0xFFFE#16 } (fun t => (t.pc, t.stack)) =
    some (0x0300#16, [0x0000#16]) := by decide
-- TC9, TC10: the finite depth is an argument
theorem test_call_overflow : faultOf (execCallWith (some 2) 0x300#12 { State.reset with pc := 0x0202#16, stack := [0x0002#16, 0x0001#16] }) =
    some (.stackOverflow 0x0200#16) := by decide
theorem test_call_below_depth : seen (execCallWith (some 2) 0x300#12 { State.reset with pc := 0x0202#16, stack := [0x0001#16] })
    (·.stackSnapshot) = some [0x0001#16, 0x0202#16] := by decide
-- TC11, TC12
theorem test_ret : stepSeen 0x00EE { State.reset with pc := 0x0400#16, stack := [0x030A#16, 0x0202#16] } (fun t => (t.pc, t.stack)) =
    some (0x030A#16, [0x0202#16]) := by decide
theorem test_ret_underflow : faultOf (step (State.reset.withFetchWord 16 0x00EE)) = some (.stackUnderflow 0x0200#16) := by decide
-- TC15, TC16
theorem test_jpV0 : stepSeen 0xBFFF (regs [(0#4, 0xFF#8)]) (·.pc) = some 0x10FE#16 := by decide
theorem test_jpV0_not_vf : stepSeen 0xBFFF (regs [(0#4, 0x01#8), (15#4, 0x09#8)]) (·.pc) = some 0x1000#16 := by decide
-- TC18, TC33
theorem test_seImm : stepSeen 0x3A01 State.reset (·.pc) = some 0x0202#16 := by decide
theorem test_seImm_edge : stepSeen 0x3000 { State.reset with pc := 0x0FFF#16 } (·.pc) = some 0x1003#16 := by decide
-- TC20, TC21
theorem test_sneImm : stepSeen 0x4A00 State.reset (·.pc) = some 0x0202#16 := by decide
theorem test_sneImm_skips : stepSeen 0x4A01 State.reset (·.pc) = some 0x0204#16 := by decide
-- TC23, TC24
theorem test_seReg : stepSeen 0x5127 (regs [(1#4, 7#8), (2#4, 7#8)]) (·.pc) = some 0x0204#16 := by decide
theorem test_seReg_differs : stepSeen 0x5120 (regs [(1#4, 7#8), (2#4, 8#8)]) (·.pc) = some 0x0202#16 := by decide
-- TC27, TC28
theorem test_sneReg : stepSeen 0x912F (regs [(1#4, 7#8), (2#4, 8#8)]) (·.pc) = some 0x0204#16 := by decide
theorem test_sneReg_equal : stepSeen 0x9120 (regs [(1#4, 7#8), (2#4, 7#8)]) (·.pc) = some 0x0202#16 := by decide

/-! ### Arithmetic, logic, shifts, random -/

-- TA1
theorem test_ldImm : stepSeen 0x6A42 State.reset (fun t => (t.readV 10#4, t.pc)) = some (0x42#8, 0x0202#16) := by decide
-- TA4
theorem test_addImm : stepSeen 0x7001 (regs [(0#4, 0xFF#8)]) (fun t => (t.readV 0#4, t.readV 15#4)) = some (0x00#8, 0x00#8) := by
  decide
-- TA8
theorem test_ldReg : stepSeen 0x8F10 (regs [(1#4, 9#8)]) (fun t => (t.readV 15#4, t.readV 1#4)) = some (9#8, 9#8) := by decide
-- TA10, TA11, TA12
theorem test_or : stepSeen 0x8011 (regs [(0#4, 0xF0#8), (1#4, 0x0F#8), (15#4, 1#8)]) (fun t => (t.readV 0#4, t.readV 15#4)) =
    some (0xFF#8, 1#8) := by decide
theorem test_and : stepSeen 0x8012 (regs [(0#4, 0xF0#8), (1#4, 0x3C#8), (15#4, 1#8)]) (fun t => (t.readV 0#4, t.readV 15#4)) =
    some (0x30#8, 1#8) := by decide
theorem test_xor : stepSeen 0x8013 (regs [(0#4, 0xF0#8), (1#4, 0x3C#8), (15#4, 1#8)]) (fun t => (t.readV 0#4, t.readV 15#4)) =
    some (0xCC#8, 1#8) := by decide
-- TA20, TA21
theorem test_addReg_vf : stepSeen 0x8FF4 (regs [(15#4, 5#8)]) (·.readV 15#4) = some 0x0A#8 := by decide
theorem test_addReg : stepSeen 0x80F4 (regs [(0#4, 0xFF#8), (15#4, 3#8)]) (fun t => (t.readV 0#4, t.readV 15#4)) =
    some (0x02#8, 0x01#8) := by decide
-- TA22, TA24
theorem test_sub : stepSeen 0x8015 (regs [(0#4, 1#8), (1#4, 2#8)]) (fun t => (t.readV 0#4, t.readV 15#4)) =
    some (0xFF#8, 0x00#8) := by decide
theorem test_sub_equal : stepSeen 0x8015 (regs [(0#4, 7#8), (1#4, 7#8)]) (fun t => (t.readV 0#4, t.readV 15#4)) =
    some (0x00#8, 0x01#8) := by decide
-- TA29, TA33
theorem test_shr : stepSeen 0x8016 (regs [(0#4, 5#8), (1#4, 0xAA#8)]) (fun t => (t.readV 0#4, t.readV 15#4)) =
    some (0x02#8, 0x01#8) := by decide
theorem test_shr_vf : stepSeen 0x8FF6 (regs [(15#4, 3#8)]) (·.readV 15#4) = some 0x01#8 := by decide
-- TA35, TA37
theorem test_subn : stepSeen 0x8017 (regs [(0#4, 5#8), (1#4, 2#8)]) (fun t => (t.readV 0#4, t.readV 15#4)) =
    some (0xFD#8, 0x00#8) := by decide
theorem test_subn_vf : stepSeen 0x8F17 (regs [(15#4, 1#8)]) (·.readV 15#4) = some 0xFF#8 := by decide
-- TA38, TA42
theorem test_shl : stepSeen 0x801E (regs [(0#4, 0x81#8), (1#4, 0xAA#8)]) (fun t => (t.readV 0#4, t.readV 15#4)) =
    some (0x02#8, 0x01#8) := by decide
theorem test_shl_vf : stepSeen 0x8FFE (regs [(15#4, 0xC0#8)]) (·.readV 15#4) = some 0x80#8 := by decide
-- TA44; the step consumes one byte of the free input
theorem test_rnd_mask : (State.reset.randomAnd 0xA7#8 0#4 0x0F#8).readV 0#4 = 0x07#8 := by decide
theorem test_rnd_consumes : stepSeen 0xC30F State.reset (fun t => (t.draws, t.pc)) = some (1, 0x0202#16) := by decide

/-! ### Index register and memory -/

-- TM2
theorem test_ldI : stepSeen 0xAFFF { State.reset with i := 0x1234#16 } (·.i) = some 0x0FFF#16 := by decide
-- TM3, TM4
theorem test_addI : stepSeen 0xF11E { regs [(1#4, 5#8)] with i := 0x0FFE#16 } (fun t => (t.i, t.readV 15#4)) =
    some (0x1003#16, 0x00#8) := by decide
theorem test_addI_wraps : stepSeen 0xF11E { regs [(1#4, 1#8)] with i := 0xFFFF#16 } (·.i) = some 0x0000#16 := by decide
-- TM7, TM12
theorem test_ldF : stepSeen 0xF029 (regs [(0#4, 0x0A#8)]) (·.i) = some 0x0032#16 := by decide
theorem test_ldF_no_mask : stepSeen 0xF029 (regs [(0#4, 0xFF#8)]) (·.i) = some 0x04FB#16 := by decide
-- TM13, TM19
theorem test_ldB : stepSeen 0xF033 { regs [(0#4, 0x9D#8)] with i := 0x0300#16 }
    (fun t => (t.byteAt 0x300, t.byteAt 0x301, t.byteAt 0x302, t.i)) = some (1#8, 5#8, 7#8, 0x0300#16) := by decide
theorem test_ldB_wraps : stepSeen 0xF033 { regs [(0#4, 0xEA#8)] with i := 0x1FFF#16 }
    (fun t => (t.byteAt 0xFFF, t.byteAt 0x000, t.byteAt 0x001)) = some (2#8, 3#8, 4#8) := by decide
-- TM20, TM24
theorem test_dump : stepSeen 0xF255 { regs [(0#4, 0x11#8), (1#4, 0x22#8), (2#4, 0x33#8), (3#4, 0x44#8)] with i := 0x0300#16 }
    (fun t => (t.byteAt 0x300, t.byteAt 0x302, t.byteAt 0x303, t.i)) = some (0x11#8, 0x33#8, 0x00#8, 0x0303#16) := by decide
theorem test_dump_wraps : stepSeen 0xF155 { regs [(0#4, 0x11#8), (1#4, 0x22#8)] with i := 0xFFFF#16 }
    (fun t => (t.byteAt 0xFFF, t.byteAt 0x000, t.i)) = some (0x11#8, 0x22#8, 0x0001#16) := by decide
-- TM25, TM28
theorem test_load : stepSeen 0xF165 { bytesAt State.reset 0x300 [0xAA#8, 0xBB#8, 0xCC#8] with i := 0x0300#16 }
    (fun t => (t.readV 0#4, t.readV 1#4, t.readV 2#4, t.i)) = some (0xAA#8, 0xBB#8, 0x00#8, 0x0302#16) := by decide
theorem test_load_font : stepSeen 0xFF65 { regs [(15#4, 7#8)] with i := 0x0041#16 }
    (fun t => (t.readV 0#4, t.readV 6#4, t.readV 14#4, t.readV 15#4, t.i)) =
    some (0xE0#8, 0x80#8, 0x80#8, 0x00#8, 0x0051#16) := by decide

/-! ### Display -/

-- TD16
theorem test_cls : stepSeen 0x0AE0 { State.reset with fb := Framebuffer.clear.toggle 0 0 } (fun t => t.fb.pixel 0 0) =
    some false := by decide
-- TD3: columns 62, 63 and 0 to 5 of row 31
theorem test_drw_wraps : stepSeen 0xD011 { bytesAt (regs [(0#4, 0x3E#8), (1#4, 0x1F#8), (15#4, 1#8)]) 0x300 [0xFF#8] with i := 0x0300#16 }
    (fun t => (t.fb.pixel 31 61, t.fb.pixel 31 62, t.fb.pixel 31 5, t.fb.pixel 31 6, t.readV 15#4)) =
    some (false, true, true, false, 0x00#8) := by decide
-- TD12: the coordinate is VF's old value, and the set pixel goes off
theorem test_drw_collision : stepSeen 0xDF01
    { bytesAt (regs [(0#4, 1#8), (15#4, 3#8)]) 0x300 [0x80#8] with i := 0x0300#16, fb := Framebuffer.clear.toggle 1 3 }
    (fun t => (t.fb.pixel 1 3, t.readV 15#4)) = some (false, 0x01#8) := by decide

/-! ### Keypad and timers -/

-- TK4, TK5
theorem test_skp : stepSeen 0xE29E ((regs [(2#4, 0x1A#8)]).writeKey 0xA#4 true) (·.pc) = some 0x0204#16 := by decide
theorem test_skp_released : stepSeen 0xE29E (regs [(2#4, 0xF5#8)]) (·.pc) = some 0x0202#16 := by decide
-- TK6, TK8
theorem test_sknp : stepSeen 0xE2A1 (regs [(2#4, 5#8)]) (·.pc) = some 0x0204#16 := by decide
theorem test_sknp_pressed : stepSeen 0xE2A1 ((regs [(2#4, 0x25#8)]).writeKey 5#4 true) (·.pc) = some 0x0202#16 := by decide
-- TK10, TK14
theorem test_ldVxKey : stepSeen 0xF30A (((regs [(3#4, 0x77#8)]).writeKey 7#4 true).writeKey 9#4 true)
    (fun t => (t.readV 3#4, t.pc)) = some (0x07#8, 0x0202#16) := by decide
theorem test_ldVxKey_waits : stepSeen 0xF30A { regs [(3#4, 0x77#8)] with pc := 0xFFFE#16 } (fun t => (t.readV 3#4, t.pc)) =
    some (0x77#8, 0xFFFE#16) := by decide
-- TK16, TK18, TK20
theorem test_ldVxDt : stepSeen 0xF407 { State.reset with dt := 0x3C#8 } (fun t => (t.readV 4#4, t.dt)) = some (0x3C#8, 0x3C#8) := by
  decide
theorem test_ldDtVx : stepSeen 0xF415 (regs [(4#4, 0x3C#8)]) (fun t => (t.dt, t.st)) = some (0x3C#8, 0x00#8) := by decide
theorem test_ldStVx : stepSeen 0xF418 (regs [(4#4, 0x02#8)]) (fun t => (t.dt, t.st, t.soundOn)) = some (0x00#8, 0x02#8, true) := by
  decide

/-! ### Unknown words, operations of the outside -/

-- TU5, TO18
theorem test_unknown_word : stepSeen 0x00EF { State.reset with stack := [0x0300#16] } (fun t => (t.pc, t.stack)) =
    some (0x0202#16, [0x0300#16]) := by decide
theorem test_step_of_reset : seen (step State.reset) (fun t => decide (t = { State.reset with pc := 0x0202#16 })) = some true := by
  decide
-- TO1, TO2
theorem test_tick : (opTick { State.reset with dt := 2#8, st := 1#8 }).dt = 1#8 ∧ (opTick { State.reset with dt := 2#8, st := 1#8 }).st = 0#8 := by
  decide
theorem test_tick_floor : (opTick State.reset).dt = 0#8 ∧ (opTick State.reset).st = 0#8 := by decide
-- TO12, TO15
theorem test_load_one_byte : (opLoad [0xAB#8] State.reset).success = true ∧ (opLoad [0xAB#8] State.reset).state.byteAt 0x200 = 0xAB#8 := by
  decide
theorem test_load_again : ((opLoad [9#8, 9#8] (opLoad [1#8, 2#8, 3#8, 4#8] State.reset).state).state.mem) =
    [(0x200, 9#8), (0x201, 9#8), (0x202, 3#8), (0x203, 4#8)] := by decide
-- TO10
theorem test_key_operations : (runOps [.keySet 3, .keySet 9, .keyClear 3] (.running State.reset)).toOption.map
    (fun c => match c with | .running t => (t.readKey 3#4, t.readKey 9#4) | .faulted _ _ => (true, false)) = some (false, true) := by
  decide
-- TO20, TO17
theorem test_fault_then_tick : (runOps [.load [0x00#8, 0xEE#8], .step, .tick] (.running State.reset)).toOption = none := by decide
theorem test_fault_then_reset : (runOps [.load [0x00#8, 0xEE#8], .step, .reset] (.running State.reset)).toOption =
    some (.running State.reset) := by decide
-- TO17: the first and last font byte and the byte after them
theorem test_reset_font : State.reset.byteAt 0x000 = 0xF0#8 ∧ State.reset.byteAt 0x04F = 0x80#8 ∧ State.reset.byteAt 0x050 = 0x00#8 := by
  decide

/-! ### Witnesses: concrete states and operands that meet the hypotheses of the statements, clause by clause -/

/-- A next state that was seen is a next state. -/
theorem next_of_seen {α : Type} {r : Result} {f : State → α} {a : α} (h : seen r f = some a) : ∃ t, r = .next t ∧ f t = a := by
  cases r with
  | next t => exact ⟨t, rfl, Option.some.inj h⟩
  | fault _ => cases h
  | refused _ => cases h

theorem witness_DecodeOfEncode : (Instr.load 0xF#4).wf = true := by decide
theorem witness_EncodeOfDecode : decodeWord 0x84AE#16 = .ok (.shl 4#4) ∧ decodeWord 0x0FEE#16 = .ok .ret := by decide
theorem witness_DecodeFollowsTable : (⟨"LD_Vx___I", 0xF065#16, 0xF0FF#16⟩ : Row) ∈ opcodeTable := by decide
theorem witness_TableRowsDisjoint : (⟨"CLS", 0x00E0#16, 0xF0FF#16⟩ : Row) ∈ opcodeTable ∧
    (⟨"CLS", 0x00E0#16, 0xF0FF#16⟩ : Row).matches 0x0AE0#16 = true := by decide
theorem witness_StepRunsDecodedInstruction :
    decodeWord (fetchWord (State.reset.withFetchWord 16 0xDFF0)) = .ok (.drw 15#4 15#4 0#4) ∧ (Instr.drw 15#4 15#4 0#4).wf = true := by
  decide
theorem witness_UnknownWordOnlyAdvancesPc : isUnknown (fetchWord State.reset) := by unfold isUnknown; decide
theorem witness_isUnknown_group0 : isUnknown 0x0FE1#16 ∧ ¬ isUnknown 0x0FE0#16 := by unfold isUnknown; decide
theorem witness_isUnknown_group8 : isUnknown 0x8008#16 ∧ isUnknown 0x8FFF#16 := by unfold isUnknown; decide
theorem witness_isUnknown_not_group8 : ¬ isUnknown 0x8007#16 ∧ ¬ isUnknown 0x800E#16 := by unfold isUnknown; decide
theorem witness_isUnknown_groupsEF : isUnknown 0xE0A2#16 ∧ isUnknown 0xFF66#16 ∧ ¬ isUnknown 0xD000#16 := by
  unfold isUnknown; decide
theorem witness_PlacedWordIsFetched : StateInv { State.reset with pc := 0xFFFF#16 } ∧ 65535 < 65536 := ⟨Memory.wf_nil, by decide⟩
theorem witness_CanonicalMemoryIsItsBytes : Memory.wf [(0x000, 0#8), (0xFFF, 1#8)] ∧
    ∀ a < 4096, Memory.read [(0x000, 0#8), (0xFFF, 1#8)] a = Memory.read [(0x000, 0#8), (0xFFF, 1#8)] a :=
  ⟨by decide, fun _ _ => rfl⟩
theorem witness_StepKeepsInvariant : StateInv State.reset ∧ ∃ t, step State.reset = .next t :=
  ⟨Memory.wf_nil, (next_of_seen (f := fun _ => ()) (a := ()) (by decide)).imp fun _ h => h.1⟩
theorem witness_SchedulesKeepInvariant : Safety.Condition.StateInv (.running State.reset) ∧
    (runOpsWith Params.default [.load [0x12#8, 0x00#8], .keySet 3, .step, .tick, .reset] (.running State.reset)).toOption.isSome =
      true :=
  ⟨Memory.wf_nil, by decide⟩
theorem witness_StepStopsOnlyAtEmptyReturn : faultOf (step (State.reset.withFetchWord 16 0x0FEE)) = some (.stackUnderflow 0x0200#16) := by
  decide
theorem witness_PcAfterStepFollowsTable : ∃ t, step (State.reset.withFetchWord 16 0xF30A) = .next t ∧ t.pc = 0x0200#16 :=
  next_of_seen (f := fun t => t.pc) (by decide)
theorem witness_UnnamedRegistersUnchanged : (∃ t, exec (.load 0xE#4) State.reset = .next t) ∧ 0xF#4 ∉ writtenRegs (.load 0xE#4) :=
  ⟨⟨_, rfl⟩, by decide⟩
theorem witness_BytesOutsideStoresUnchanged : (∃ t, exec (.ldB 0#4) State.reset = .next t) ∧
    ∀ j < storedCount (.ldB 0#4), 3 ≠ arrayAddr (dataAddr State.reset.i j) := ⟨⟨_, rfl⟩, by decide⟩
theorem witness_KeysAndTimersInStep :
    (∃ t, step ((regs [(4#4, 1#8)]).withFetchWord 16 0xF415) = .next t ∧ t.dt = 1#8) ∧
    (∃ t, step ((regs [(4#4, 1#8)]).withFetchWord 16 0xF418) = .next t ∧ t.st = 1#8) :=
  ⟨next_of_seen (f := fun t => t.dt) (by decide), next_of_seen (f := fun t => t.st) (by decide)⟩
theorem witness_FramebufferChangers : ∃ t, perform .step ({ State.reset with i := 0#16 }.withFetchWord 16 0xD015) = .next t ∧
    t.fb.pixel 0 0 = true := next_of_seen (f := fun t => t.fb.pixel 0 0) (by decide)
theorem witness_StackChangers :
    (∃ t, perform .step (State.reset.withFetchWord 16 0x2300) = .next t ∧ t.stack = [0x0202#16]) ∧
    (∃ t, perform .step ({ State.reset with stack := [0x0300#16] }.withFetchWord 16 0x00EE) = .next t ∧ t.stack = []) :=
  ⟨next_of_seen (f := fun t => t.stack) (by decide), next_of_seen (f := fun t => t.stack) (by decide)⟩
theorem witness_IndexChangers : ∃ t, perform .step (State.reset.withFetchWord 16 0xF055) = .next t ∧ t.i = 1#16 :=
  next_of_seen (f := fun t => t.i) (by decide)
theorem witness_FlagIsZeroOrOne : (∃ t, exec (.addReg 0xE#4 0xF#4) State.reset = .next t) ∧ leavesFlag (.addReg 0xE#4 0xF#4) = true ∧
    leavesFlag (.addReg 0xF#4 0xE#4) = false := ⟨⟨_, rfl⟩, by decide, by decide⟩
theorem witness_OnlyRndReadsRandomInput : ∀ x nn, Instr.cls ≠ .rnd x nn := fun _ _ h => by cases h
theorem witness_HighIndexBitsUnobservable :
    Safety.Condition.sameButHighIndex (.running State.reset) (.running { State.reset with i := 0xF000#16 }) := ⟨rfl, by decide⟩
theorem witness_RetPopsOrUnderflows : { State.reset with stack := [0xFFFF#16] }.stack = 0xFFFF#16 :: [] ∧ State.reset.stack = [] := ⟨rfl, rfl⟩
theorem witness_ReturnComesBackAfterCall :
    decodeWord (fetchWord (State.reset.withFetchWord 16 0x2300)) = .ok (.call 0x300#12) ∧
    decodeWord (fetchWord ({ State.reset with pc := 0x0300#16, stack := [0x0202#16] }.withFetchWord 16 0x00EE)) = .ok .ret := by decide
theorem witness_StoreBcd : StateInv { State.reset with i := 0x0FFE#16 } ∧
    ∀ j < 3, 1 ≠ arrayAddr (dataAddr ({ State.reset with i := 0x0FFE#16 } : State).i j) := ⟨Memory.wf_nil, by decide⟩
theorem witness_RegisterDump : StateInv { State.reset with i := 0x0FF1#16 } ∧ (0xF#4).toNat ≤ (0xF#4).toNat ∧
    ∀ j < (0xF#4).toNat + 1, 1 ≠ arrayAddr (dataAddr ({ State.reset with i := 0x0FF1#16 } : State).i j) :=
  ⟨Memory.wf_nil, by decide, by decide⟩
theorem witness_LoadRestoresDump : StateInv State.reset ∧ (0x1000#16).toNat % 4096 = State.reset.i.toNat % 4096 :=
  ⟨Memory.wf_nil, by decide⟩
theorem witness_DrawSprite : spriteCovers State.reset 0x3F#8 0x1F#8 1#4 31 63 ∧ ¬ spriteCovers State.reset 0x3F#8 0x1F#8 0#4 31 63 :=
  ⟨⟨0, 0, by decide⟩, fun ⟨_, _, h, _⟩ => absurd h (Nat.not_lt_zero _)⟩
theorem witness_DrawSprite_collision : { State.reset with fb := Framebuffer.clear.toggle 31 63 }.fb.pixel 31 63 = true := by decide
theorem witness_DrawTwiceRestores :
    ∃ u : State, u.mem = State.reset.mem ∧ u.i = State.reset.i ∧ u.readV 0#4 = State.reset.readV 0#4 ∧ u.fb ≠ State.reset.fb ∧
      spriteCovers State.reset (State.reset.readV 0#4) (State.reset.readV 0#4) 1#4 0 0 ∧ State.reset.fb.pixel 0 0 = false :=
  ⟨{ State.reset with fb := Framebuffer.clear.toggle 0 0 }, rfl, rfl, rfl, by decide, ⟨0, 0, by decide⟩, by decide⟩
theorem witness_GetKey : (∀ k, State.reset.readKey k = false) ∧
    ((State.reset.writeKey 0xF#4 true).readKey 0xF#4 = true ∧
      ∀ j : Nibble, j.toNat < (0xF#4).toNat → (State.reset.writeKey 0xF#4 true).readKey j = false) := by decide
theorem witness_StandingStill :
    (decodeWord (fetchWord (State.reset.withFetchWord 16 0xF30A)) = .ok (.ldVxKey 3#4) ∧
      ∀ k, (State.reset.withFetchWord 16 0xF30A).readKey k = false) ∧
    (decodeWord (fetchWord (State.reset.withFetchWord 16 0x1200)) = .ok (.jp 0x200#12) ∧
      (State.reset.withFetchWord 16 0x1200).pc.toNat = (0x200#12).toNat) := by decide
theorem witness_KeyOperations : 15 < 16 ∧ 16 ≤ 16 ∧ ∃ t, perform .reset (State.reset.writeKey 4#4 true) = .next t :=
  ⟨by decide, by decide, ⟨_, rfl⟩⟩
theorem witness_LoadSucceeds : (0 < [0xAB#8].length ∧ [0xAB#8].length ≤ 3583) ∧
    (0 < (List.replicate 3583 0xAB#8).length ∧ (List.replicate 3583 0xAB#8).length ≤ 3583) ∧
    StateInv State.reset ∧ (0x1FF < 0x200 ∨ 0x200 + 3583 ≤ 0x1FF) ∧ (0xFFF < 0x200 ∨ 0x200 + 3583 ≤ 0xFFF) := by
  refine ⟨by decide, ⟨?_, ?_⟩, Memory.wf_nil, by decide, by decide⟩
  · rw [List.length_replicate]; decide
  · rw [List.length_replicate]
theorem witness_LoadFails : ([] : List Byte).length = 0 ∧ 3583 < (List.replicate 3584 0xFF#8).length := by
  rw [List.length_replicate]; decide
theorem witness_ResetState : 79 < fontRom.length ∧ 80 ≤ 80 ∧ 80 < 4096 := by decide
theorem witness_OnlyResetEndsAFault : Op.reset = .reset ∧ Op.tick ≠ .reset := by decide

/-- Another instantiation: one stack entry, images of at most 2 bytes, a font of all ones. -/
def otherParams : Params := ⟨some 1, 2, Vector.replicate 80 0xFF#8⟩

/-- Two nested calls to the same CALL overflow a stack of depth 1 at the second (R102, R202). -/
theorem test_schedule_finite_depth :
    runOpsWith otherParams [.load [0x22#8, 0x00#8], .step, .step] (.running State.reset) =
      .ok (.faulted (.stackOverflow 0x0200#16) 0) := by decide
/-- Reset writes the given font, and Load refuses 3 bytes under a bound of 2 (R230, R233). -/
theorem test_other_font_and_bound :
    (opResetWith otherParams State.reset).byteAt 0x04F = 0xFF#8 ∧ (opResetWith otherParams State.reset).byteAt 0x050 = 0x00#8 ∧
    (opLoadWith otherParams.maxProgramLen [1#8, 2#8, 3#8] State.reset).success = false := by decide
theorem witness_StepUnderParameters :
    (decodeWord (fetchWord ({ State.reset with stack := [0x0202#16] }.withFetchWord 16 0x2200)) = .ok (.call 0x200#12) ∧
      otherParams.stackDepth = some [0x0202#16].length) ∧
    (∀ nnn, decodeWord (fetchWord (State.reset.withFetchWord 16 0x00E0)) = .ok (.call nnn) →
      otherParams.stackDepth ≠ some State.reset.stack.length) := ⟨by decide, fun _ _ => by decide⟩
theorem witness_ResetAndLoadUnderParameters :
    (opLoadWith 2 [1#8, 2#8] State.reset).success = true ∧ (opLoadWith 2 [] State.reset).success = false ∧
    StateInv State.reset ∧ (0x1FF < 0x200 ∨ 0x200 + 2 ≤ 0x1FF) ∧ (0x202 < 0x200 ∨ 0x200 + 2 ≤ 0x202) :=
  ⟨by decide, by decide, Memory.wf_nil, by decide, by decide⟩

/-- The longest image that fits, 3584 bytes, ends at 0xFFF: it is accepted under a bound of 3584 and refused under 3583. -/
theorem witness_ResetAndLoadUnderParameters_boundary :
    (opLoadWith 3584 (List.replicate 3584 0xFF#8) State.reset).success = true ∧
    (opLoadWith 3583 (List.replicate 3584 0xFF#8) State.reset).success = false ∧
    (List.replicate 3584 0xFF#8).length ≤ 3584 ∧ 3583 < (List.replicate 3584 0xFF#8).length ∧ 0x200 + 3583 = 0xFFF ∧
    (0x1FF < 0x200 ∨ 0x200 + (List.replicate 3584 0xFF#8).length ≤ 0x1FF) := by
  rw [opLoadWith_success, opLoadWith_success, wfImage, wfImage, List.length_replicate]; decide

end Sys2Proof.Tests
end

section
/-! PROOFS. The parameters of spec/00_scope.md R5. CALL is the one instruction that reads STACK_DEPTH, so a step under any
parameters differs from the default step at a CALL on a full stack alone. Reset and Load go through the rules of memory. -/

namespace Sys2Proof.Proofs.Scope

open Sys2Proof.Machine Sys2Proof.Safety

/-! ### CALL under a stack depth -/

/-- The stack is full exactly where the depth is finite and is the number of entries (spec/41_control_flow.md R102). -/
@[simp] theorem stackFull_iff (s : State) (d : Option Nat) : s.stackFull d = true ↔ d = some s.stack.length := by
  cases d with
  | none => simp [State.stackFull]
  | some depth => simp [State.stackFull, eq_comm]

@[simp] theorem stackFull_eq_false_iff (s : State) (d : Option Nat) : s.stackFull d = false ↔ d ≠ some s.stack.length := by
  rw [← Bool.not_eq_true, stackFull_iff]

/-- CALL on a full stack is the overflow fault (spec/60_exceptions.md R202). -/
theorem execCallWith_of_full {d : Option Nat} {s : State} (h : s.stackFull d = true) (nnn : Addr) :
    execCallWith d nnn s = raiseFault .stackOverflow s := by
  simp [execCallWith, h]

/-- A fault in the execute phase records the address the word was fetched from. -/
@[simp] theorem raiseFault_advance (cause : Word → Fault) (s : State) : raiseFault cause s.advance = .fault (cause s.pc) := by
  rw [raiseFault, State.advance_pc, BitVec.add_sub_cancel]

/-- Where no CALL meets a full stack, an instruction does what it does at the defaults. -/
theorem execWith_of_not_full (p : Params) {i : Instr} {s : State}
    (h : ∀ nnn, i = .call nnn → s.stackFull p.stackDepth = false) : execWith p i s = exec i s := by
  by_cases hi : ∃ nnn, i = .call nnn
  · obtain ⟨nnn, rfl⟩ := hi
    rw [exec_call, execCall_eq]
    exact execCallWith_of_not_full (h nnn rfl) nnn
  · exact execWith_of_not_call p (not_exists.mp hi) s

/-- A step on a CALL word with a full stack is the overflow fault at that word. -/
theorem stepWith_call_of_full (p : Params) {s : State} {nnn : Addr} (hd : decodeWord (fetchWord s) = .ok (.call nnn))
    (h : s.stackFull p.stackDepth = true) : stepWith p s = .fault (.stackOverflow s.pc) :=
  calc stepWith p s
    _ = execCallWith p.stackDepth nnn s.advance := stepWith_of_decoded p hd
    _ = raiseFault .stackOverflow s.advance := execCallWith_of_full (by simpa using h) nnn
    _ = .fault (.stackOverflow s.pc) := raiseFault_advance _ s

/-- Every other step is the default step, on a defined word and on an unknown one. -/
theorem stepWith_of_not_full (p : Params) {s : State}
    (h : ∀ nnn, decodeWord (fetchWord s) = .ok (.call nnn) → s.stackFull p.stackDepth = false) : stepWith p s = step s := by
  cases hd : decodeWord (fetchWord s) with
  | ok i =>
    rw [stepWith_of_decoded p hd, step_of_decoded hd]
    refine execWith_of_not_full p fun nnn hi => ?_
    simpa using h nnn (hi ▸ hd)
  | error r => rw [stepWith_of_unknown p hd, step_of_unknown hd]

/-- Settles O59: the cases of the step, by the decoded word and by whether the stack is full. -/
theorem stepUnderParameters : Obligations.StepUnderParameters := by
  intro p s
  refine ⟨fun nnn hd h => stepWith_call_of_full p hd ((stackFull_iff ..).2 h), fun h => stepWith_of_not_full p fun nnn hd => ?_⟩
  exact (stackFull_eq_false_iff ..).2 (h nnn hd)

/-! ### Reset and Load -/

theorem wfImage_iff (n : Nat) (bytes : List Byte) : wfImage n bytes = true ↔ 0 < bytes.length ∧ bytes.length ≤ n := by
  rw [wfImage, decide_eq_true_iff]

/-- Load changes memory alone, under any bound. -/
theorem opLoadWith_frame (n : Nat) (bytes : List Byte) (s : State) :
    (opLoadWith n bytes s).state = { s with mem := (opLoadWith n bytes s).state.mem } := by
  unfold opLoadWith
  split <;> rfl

/-- No address of an image that fits between 0x200 and 0xFFF wraps (spec/70_reset_and_hazards.md R233). -/
theorem arrayAddr_progBase {j : Nat} (h : j < 3584) : arrayAddr (progBase + j) = 0x200 + j :=
  Nat.mod_eq_of_lt (show 512 + j < 4096 by omega)

/-- An image that fits reads back from 0x200 on. -/
theorem load_read_stored {m : Memory} (hm : m.wf) {bytes : List Byte} (hl : bytes.length ≤ 3584) {i : Nat}
    (hi : i < bytes.length) : (memWriteBytes m progBase bytes).read (0x200 + i) = bytes[i] := by
  rw [← arrayAddr_progBase (Nat.lt_of_lt_of_le hi hl)]
  exact memWriteBytes_read_stored hm progBase bytes (Nat.le_trans hl (by decide)) hi

/-- Storing an image that fits leaves every byte outside it alone, in any memory. -/
theorem load_read_other (m : Memory) {bytes : List Byte} (hl : bytes.length ≤ 3584) {a : Nat}
    (ha : a < 0x200 ∨ 0x200 + bytes.length ≤ a) : (memWriteBytes m progBase bytes).read a = m.read a := by
  refine memWriteBytes_read_other m progBase bytes fun j hj => ?_
  rw [arrayAddr_progBase (Nat.lt_of_lt_of_le hj hl)]
  omega

/-- Settles O60: the rules of the reset image, and Load by whether the bound accepts the image. -/
theorem resetAndLoadUnderParameters : Obligations.ResetAndLoadUnderParameters := by
  intro p s
  refine ⟨⟨_, performWith_reset p s, rfl, resetMemory_wf p.fontRom, fun a h => resetMemory_read_font p.fontRom h,
    fun a h _ => resetMemory_read_rest p.fontRom h⟩, fun bytes => ⟨_, performWith_load p bytes s, opLoadWith_frame .., ?_⟩⟩
  rw [opLoadWith_success]
  refine ⟨wfImage_iff .., fun h => by rw [opLoadWith_of_not_wf h], fun h hl => ?_⟩
  rw [opLoadWith_of_wf h]
  exact ⟨fun hm i hi => load_read_stored hm hl hi, fun a _ ha => load_read_other s.mem hl ha⟩

end Sys2Proof.Proofs.Scope
end

section
/-! PROOFS. The rules of the state, spec/10_state.md R20 to R33. Two facts about `exec`, each said once for all instructions, carry
the family: what an instruction can have done when it completes (`Effect`), and that an instruction which does not touch I, or ST,
commutes with every change of it (`exec_relabel`). -/

namespace Sys2Proof.Proofs.CoreState

open Sys2Proof.Machine Sys2Proof.Safety

/-! ### Reset -/

/-- Settles O13: nothing is listed in the memory of the reset state. -/
theorem resetMeetsInvariant : Obligations.ResetMeetsInvariant := Memory.wf_nil

@[simp] theorem readV_reset (r : RegIdx) : State.reset.readV r = 0x00#8 := Vector.getElem_replicate ..

@[simp] theorem readKey_reset (k : Nibble) : State.reset.readKey k = false := Vector.getElem_replicate ..

@[simp] theorem pixel_reset (y : Fin 32) (x : Fin 64) : State.reset.fb.pixel y x = false := by
  simp [Framebuffer.pixel, State.reset]

theorem fontRom_length : fontRom.length = 80 := by decide

/-- The reset image holds the font at its start. -/
theorem read_reset_of_lt {a : Nat} (h : a < fontRom.length) : State.reset.mem.read a = fontRom[a] :=
  List.getD_eq_getElem fontRom _ h

/-- The reset image is zero above the font. -/
theorem read_reset_of_le {a : Nat} (h : 80 ≤ a) : State.reset.mem.read a = 0x00#8 :=
  List.getD_eq_default fontRom _ (fontRom_length ▸ h)

/-- Settles O55: Reset gives the reset state but for the count of random bytes, and that state is read field by field. -/
theorem resetState : Obligations.ResetState := by
  refine ⟨fontRom_length, fun s => ⟨_, perform_reset s, opReset_eq s, ?_⟩⟩
  rw [opReset_eq]
  exact ⟨readV_reset, rfl, rfl, rfl, rfl, rfl, readKey_reset, pixel_reset, fun _ h => read_reset_of_lt h,
    fun _ h _ => read_reset_of_le h⟩

/-! ### What an instruction can have done -/

/-- The instructions that write I (spec/10_state.md R22). -/
inductive WritesIndex : Instr → Prop
  | ldI (nnn : Addr) : WritesIndex (.ldI nnn)
  | addI (x : RegIdx) : WritesIndex (.addI x)
  | ldF (x : RegIdx) : WritesIndex (.ldF x)
  | dump (x : RegIdx) : WritesIndex (.dump x)
  | load (x : RegIdx) : WritesIndex (.load x)

/-- What a completed instruction can have done to I, the stack, the timers and the keys: nothing, or the one change that the
rule of its instruction names. -/
inductive Effect (s : State) : Instr → State → Prop
  | plain {i : Instr} {t : State}
      (h : t = { s with v := t.v, pc := t.pc, fb := t.fb, mem := t.mem, draws := t.draws }) : Effect s i t
  | index {i : Instr} {t : State} (hi : WritesIndex i) (h : t = { s with v := t.v, i := t.i, mem := t.mem }) : Effect s i t
  | delay (x : RegIdx) : Effect s (.ldDtVx x) (s.writeDT (s.readV x))
  | sound (x : RegIdx) : Effect s (.ldStVx x) (s.writeST (s.readV x))
  | call (nnn : Addr) : Effect s (.call nnn) ((s.push s.pc).jump (zextAddr nnn))
  | ret {w : Word} {rest : List Word} (h : s.stack = w :: rest) : Effect s .ret ((s.withStack rest).jump w)

/-- A skip changes PC alone. -/
theorem skipIf_frame (s : State) (c : Bool) : s.skipIf c = { s with pc := (s.skipIf c).pc } := by cases c <;> rfl

/-- Loading registers changes the V file alone. -/
theorem writeVs_frame (s : State) (j : Nat) (bs : List Byte) : s.writeVs j bs = { s with v := (s.writeVs j bs).v } := by
  induction bs generalizing s j with
  | nil => rfl
  | cons b bs ih =>
    simp only [State.writeVs]
    split
    · exact ih _ _
    · rfl

theorem effect_plain_of_skip {i : Instr} {s t : State} {c : Bool} (h : Host.Outcome.next (s.skipIf c) = (.next t : Result)) :
    Effect s i t := by
  cases h
  exact .plain (by rw [skipIf_frame])

theorem effect_of_ret {s t : State} (h : execRet s = .next t) : Effect s .ret t := by
  cases hs : s.stack with
  | nil => rw [execRet_of_nil hs] at h; cases h
  | cons w rest => rw [execRet_of_cons hs] at h; cases h; exact .ret hs

theorem effect_of_ldVxKey {x : RegIdx} {s t : State} (h : execLdVxKey x s = .next t) : Effect s (.ldVxKey x) t := by
  cases hk : s.lowestKey with
  | none => rw [execLdVxKey_of_none hk] at h; cases h; exact .plain rfl
  | some k => rw [execLdVxKey_of_some hk] at h; cases h; exact .plain rfl

theorem effect_of_load {x : RegIdx} {s t : State} (h : execLoad x s = .next t) : Effect s (.load x) t := by
  cases h
  exact .index (.load x) (by rw [writeVs_frame]; rfl)

/-- Everything an instruction that completes can have done, by instruction. -/
theorem effect_of_exec {i : Instr} {s t : State} (h : exec i s = .next t) : Effect s i t := by
  cases i with
  | ret => exact effect_of_ret h
  | call nnn => cases h; exact .call nnn
  | seImm | sneImm | seReg | sneReg | skp | sknp => exact effect_plain_of_skip h
  | ldVxKey x => exact effect_of_ldVxKey h
  | ldDtVx x => cases h; exact .delay x
  | ldStVx x => cases h; exact .sound x
  | ldI nnn => cases h; exact .index (.ldI nnn) rfl
  | addI x => cases h; exact .index (.addI x) rfl
  | ldF x => cases h; exact .index (.ldF x) rfl
  | dump x => cases h; exact .index (.dump x) rfl
  | load x => exact effect_of_load h
  | _ => cases h; exact .plain rfl

/-- The same for a step: the effect of the decoded instruction on the advanced state, or the bare advance of an unknown word. -/
theorem step_effect {s t : State} (h : step s = .next t) :
    (∃ i, decodeWord (fetchWord s) = .ok i ∧ Effect s.advance i t) ∨ t = s.advance := by
  obtain ⟨i, hd, he⟩ | ⟨r, _, ht⟩ := step_cases h
  · exact .inl ⟨i, hd, effect_of_exec he⟩
  · cases ht; exact .inr rfl

/-! ### Who changes a key, a timer, the stack, I -/

theorem Effect.key_eq {s t : State} {i : Instr} (h : Effect s i t) : t.key = s.key := by
  cases h with
  | plain h | index _ h => rw [h]
  | _ => rfl

theorem Effect.dt_eq_or {s t : State} {i : Instr} (h : Effect s i t) : t.dt = s.dt ∨ ∃ x, i = .ldDtVx x := by
  cases h with
  | plain h | index _ h => exact .inl (by rw [h])
  | delay x => exact .inr ⟨x, rfl⟩
  | _ => exact .inl rfl

theorem Effect.st_eq_or {s t : State} {i : Instr} (h : Effect s i t) : t.st = s.st ∨ ∃ x, i = .ldStVx x := by
  cases h with
  | plain h | index _ h => exact .inl (by rw [h])
  | sound x => exact .inr ⟨x, rfl⟩
  | _ => exact .inl rfl

theorem Effect.stack_eq_or {s t : State} {i : Instr} (h : Effect s i t) :
    t.stack = s.stack ∨ (∃ nnn, i = .call nnn ∧ t.stack = s.pc :: s.stack) ∨ (i = .ret ∧ s.stack = t.pc :: t.stack) := by
  cases h with
  | plain h | index _ h => exact .inl (by rw [h])
  | call nnn => exact .inr (.inl ⟨nnn, rfl, rfl⟩)
  | ret h => exact .inr (.inr ⟨rfl, h⟩)
  | _ => exact .inl rfl

theorem Effect.i_eq_or {s t : State} {i : Instr} (h : Effect s i t) : t.i = s.i ∨ WritesIndex i := by
  cases h with
  | plain h => exact .inl (by rw [h])
  | index hi _ => exact .inr hi
  | _ => exact .inl rfl

/-- Settles O20: from what a step can have done. -/
theorem keysAndTimersInStep : Obligations.KeysAndTimersInStep := by
  intro s t h
  obtain ⟨i, hd, he⟩ | rfl := step_effect h
  · rw [hd]
    refine ⟨he.key_eq, fun hne => ?_, fun hne => ?_⟩
    · obtain ⟨x, rfl⟩ := he.dt_eq_or.resolve_left hne
      exact ⟨x, rfl⟩
    · obtain ⟨x, rfl⟩ := he.st_eq_or.resolve_left hne
      exact ⟨x, rfl⟩
  · exact ⟨rfl, fun hne => absurd rfl hne, fun hne => absurd rfl hne⟩

/-- Every operation but Reset and Step changes timers, keys and memory alone (spec/00_scope.md R10). -/
theorem perform_cases {op : Op} {s t : State} (h : perform op s = .next t) :
    op = .reset ∨ (op = .step ∧ step s = .next t) ∨
      t = { s with dt := t.dt, st := t.st, key := t.key, mem := t.mem } := by
  cases op with
  | reset => exact .inl rfl
  | step => exact .inr (.inl ⟨rfl, perform_step s ▸ h⟩)
  | load bytes =>
    cases h
    exact .inr (.inr (by rw [Scope.opLoadWith_frame]))
  | tick => cases h; exact .inr (.inr rfl)
  | keySet k =>
    rw [perform_keySet, opKeySet] at h
    split at h <;> cases h
    exact .inr (.inr rfl)
  | keyClear k =>
    rw [perform_keyClear, opKeyClear] at h
    split at h <;> cases h
    exact .inr (.inr rfl)

/-- Settles O22: only a step reaches the stack besides Reset, and of a step's effects only CALL's and RET's. -/
theorem stackChangers : Obligations.StackChangers := by
  intro op s t h hne
  obtain rfl | ⟨rfl, hs⟩ | ht := perform_cases h
  · exact .inl rfl
  · obtain ⟨i, hd, he⟩ | rfl := step_effect hs
    · rw [hd]
      obtain ⟨nnn, rfl, hstack⟩ | ⟨rfl, hstack⟩ := he.stack_eq_or.resolve_left hne
      · exact .inr ⟨rfl, .inl ⟨nnn, rfl, hstack⟩⟩
      · exact .inr ⟨rfl, .inr ⟨rfl, hstack⟩⟩
    · exact absurd rfl hne
  · exact absurd (by rw [ht]) hne

/-- Settles O23: only a step reaches I besides Reset, and of a step's effects only those of the five instructions. -/
theorem indexChangers : Obligations.IndexChangers := by
  intro op s t h hne
  obtain rfl | ⟨rfl, hs⟩ | ht := perform_cases h
  · exact .inl rfl
  · obtain ⟨i, hd, he⟩ | rfl := step_effect hs
    · refine .inr ⟨rfl, ?_⟩
      rw [hd]
      cases he.i_eq_or.resolve_left hne with
      | ldI nnn => exact .inl ⟨nnn, rfl⟩
      | addI x => exact .inr ⟨x, .inl rfl⟩
      | ldF x => exact .inr ⟨x, .inr (.inl rfl)⟩
      | dump x => exact .inr ⟨x, .inr (.inr (.inl rfl))⟩
      | load x => exact .inr ⟨x, .inr (.inr (.inr rfl))⟩
    · exact absurd rfl hne
  · exact absurd (by rw [ht]) hne

/-! ### Changing I or ST under an instruction -/

/-- The state with I and ST mapped. -/
def relabel (φ : Word → Word) (ψ : Byte → Byte) (s : State) : State := { s with i := φ s.i, st := ψ s.st }

/-- The instructions whose rule reads or writes I: DRW and LD B read it only. -/
def touchesIndex : Instr → Bool
  | .ldI _ | .addI _ | .ldF _ | .ldB _ | .dump _ | .load _ | .drw _ _ _ => true
  | _ => false

section Relabel

variable (φ : Word → Word) (ψ : Byte → Byte) (s : State)

theorem skipIf_relabel (c : Bool) : (relabel φ ψ s).skipIf c = relabel φ ψ (s.skipIf c) := by cases c <;> rfl

theorem writeVs_relabel (j : Nat) (bs : List Byte) : (relabel φ ψ s).writeVs j bs = relabel φ ψ (s.writeVs j bs) := by
  induction bs generalizing s j with
  | nil => rfl
  | cons b bs ih =>
    simp only [State.writeVs]
    split
    · exact ih (s.writeV _ b) (j + 1)
    · rfl

theorem execRet_relabel : execRet (relabel φ ψ s) = mapNext (relabel φ ψ) (execRet s) := by
  cases hs : s.stack with
  | nil => rw [execRet_of_nil hs, execRet_of_nil (s := relabel φ ψ s) hs]; rfl
  | cons w rest => rw [execRet_of_cons hs, execRet_of_cons (s := relabel φ ψ s) hs]; rfl

theorem execLdVxKey_relabel (x : RegIdx) : execLdVxKey x (relabel φ ψ s) = mapNext (relabel φ ψ) (execLdVxKey x s) := by
  cases hk : s.lowestKey with
  | none => rw [execLdVxKey_of_none hk, execLdVxKey_of_none (s := relabel φ ψ s) hk]; rfl
  | some k => rw [execLdVxKey_of_some hk, execLdVxKey_of_some (s := relabel φ ψ s) hk]; rfl

/-- An instruction commutes with every change of I if its rule does not touch I, and with every change of ST if it does not
write ST. -/
theorem exec_relabel {i : Instr} (hφ : touchesIndex i = true → φ = id) (hψ : (∃ x, i = .ldStVx x) → ψ = id) :
    exec i (relabel φ ψ s) = mapNext (relabel φ ψ) (exec i s) := by
  cases i with
  | ret => exact execRet_relabel φ ψ s
  | seImm | sneImm | seReg | sneReg | skp | sknp => exact congrArg Host.Outcome.next (skipIf_relabel φ ψ s _)
  | ldVxKey x => exact execLdVxKey_relabel φ ψ s x
  | ldStVx x => obtain rfl := hψ ⟨x, rfl⟩; rfl
  | load x =>
    obtain rfl := hφ rfl
    exact congrArg (fun t : State => Host.Outcome.next (t.advanceIndex x)) (writeVs_relabel id ψ s 0 _)
  | ldI | addI | ldF | ldB | dump | drw => obtain rfl := hφ rfl; rfl
  | _ => rfl

end Relabel

/-- Settles O26: a step fetches the same word, and every instruction but LD ST commutes with the change of ST, which LD ST
overwrites. -/
theorem noInstructionReadsSoundTimer : Obligations.NoInstructionReadsSoundTimer := by
  intro s b
  have hf : fetchWord { s with st := b } = fetchWord s := fetchWord_congr rfl rfl
  cases hd : decodeWord (fetchWord s) with
  | error r =>
    rw [step_of_unknown hd, step_of_unknown (hf ▸ hd)]
    exact congrArg Host.Outcome.next (if_neg (by simp)).symm
  | ok i =>
    rw [step_of_decoded hd, step_of_decoded (hf ▸ hd)]
    by_cases hi : ∃ x, i = .ldStVx x
    · obtain ⟨x, rfl⟩ := hi
      exact congrArg Host.Outcome.next (if_pos ⟨x, rfl⟩).symm
    · simp only [Except.ok.injEq, hi, if_false]
      exact exec_relabel id (fun _ => b) s.advance (fun _ => rfl) (fun h => absurd h hi)

/-! ### The low twelve bits of I -/

/-- The bits of I that reach the memory array. -/
def low (w : Word) : Word := w % 4096#16

theorem low_toNat (w : Word) : (low w).toNat = w.toNat % 4096 := BitVec.toNat_umod

theorem low_eq_iff (w u : Word) : low w = low u ↔ w.toNat % 4096 = u.toNat % 4096 := by
  rw [← BitVec.toNat_inj, low_toNat, low_toNat]

@[simp] theorem low_low (w : Word) : low (low w) = low w := by
  rw [low_eq_iff, low_toNat, Nat.mod_mod]

/-- Sums modulo 65536 agree modulo 4096, which divides it. -/
@[simp] theorem low_low_add (w u : Word) : low (low w + u) = low (w + u) := by
  rw [low_eq_iff, BitVec.toNat_add, BitVec.toNat_add, low_toNat]
  omega

/-- The state with the high bits of I cleared. -/
def lowIndex : State → State := relabel low id

/-- Two states cannot be told apart exactly when they are the same with the high bits of I cleared. -/
theorem sameButHighIndex_iff (s t : State) : sameButHighIndex s t ↔ lowIndex s = lowIndex t := by
  constructor
  · rintro ⟨ht, hi⟩
    rw [ht]
    exact congrArg (fun w => { s with i := w }) ((low_eq_iff ..).2 hi)
  · intro h
    cases s; cases t
    simp only [lowIndex, relabel, State.mk.injEq, id] at h
    obtain ⟨rfl, hi, rfl, rfl, rfl, rfl, rfl, rfl, rfl, rfl⟩ := h
    exact ⟨rfl, (low_eq_iff ..).1 hi⟩

/-! ### Accesses through I -/

theorem memReadBytes_congr (m : Memory) {a a' : Nat} (h : a % 4096 = a' % 4096) (n : Nat) :
    memReadBytes m a n = memReadBytes m a' n := by
  induction n generalizing a a' with
  | zero => rfl
  | succ n ih =>
    have hread : memRead m a = memRead m a' := congrArg m.read h
    rw [memReadBytes, memReadBytes, hread, ih (a' := a' + 1) (by omega)]

theorem memWriteBytes_congr (m : Memory) {a a' : Nat} (h : a % 4096 = a' % 4096) (bs : List Byte) :
    memWriteBytes m a bs = memWriteBytes m a' bs := by
  induction bs generalizing m a a' with
  | nil => rfl
  | cons b bs ih =>
    have hwrite : memWrite m a b = memWrite m a' b := congrArg (m.write · b) h
    rw [memWriteBytes, memWriteBytes, hwrite, ih (a' := a' + 1) _ (by omega)]

/-- The array does not see the high bits of I (spec/20_memory.md R52). -/
theorem dataAddr_low (w : Word) (j : Nat) : dataAddr (low w) j % 4096 = dataAddr w j % 4096 := by
  rw [dataAddr, dataAddr, low_toNat, Nat.mod_add_mod]

@[simp] theorem memReadBytes_low (m : Memory) (w : Word) (n : Nat) :
    memReadBytes m (dataAddr (low w) 0) n = memReadBytes m (dataAddr w 0) n :=
  memReadBytes_congr m (dataAddr_low w 0) n

@[simp] theorem memWriteBytes_low (m : Memory) (w : Word) (bs : List Byte) :
    memWriteBytes m (dataAddr (low w) 0) bs = memWriteBytes m (dataAddr w 0) bs :=
  memWriteBytes_congr m (dataAddr_low w 0) bs

/-! ### No schedule tells the high bits of I -/

/-- Where I ends after a dump or load, its high bits do not reach the low ones. -/
theorem lowIndex_advanceIndex (s : State) (x : RegIdx) :
    lowIndex ((lowIndex s).advanceIndex x) = lowIndex (s.advanceIndex x) := by
  simp [lowIndex, relabel, State.advanceIndex, State.writeI]

/-- Load reads the same bytes. -/
theorem execLoad_lowIndex (x : RegIdx) (s : State) : execLoad x (lowIndex s) =
    .next ((lowIndex (s.writeVs 0 (memReadBytes s.mem (dataAddr s.i 0) (rangeCount x)))).advanceIndex x) := by
  rw [lowIndex, ← writeVs_relabel, ← memReadBytes_low]
  rfl

/-- Dump stores at the same addresses. -/
theorem execDump_lowIndex (x : RegIdx) (s : State) : execDump x (lowIndex s) =
    .next ((lowIndex (s.writeMem (memWriteBytes s.mem (dataAddr s.i 0) (s.readVs (rangeCount x))))).advanceIndex x) := by
  rw [← memWriteBytes_low]
  rfl

theorem execLdB_lowIndex (x : RegIdx) (s : State) : execLdB x (lowIndex s) = mapNext lowIndex (execLdB x s) := by
  rw [execLdB, execLdB, ← memWriteBytes_low s.mem s.i]
  rfl

theorem drawn_lowIndex (x y : RegIdx) (n : Nibble) (s : State) : (lowIndex s).drawn x y n = s.drawn x y n := by
  rw [State.drawn, State.drawn, ← memReadBytes_low s.mem s.i]
  rfl

theorem execDrw_lowIndex (x y : RegIdx) (n : Nibble) (s : State) :
    execDrw x y n (lowIndex s) = mapNext lowIndex (execDrw x y n s) := by
  rw [execDrw, drawn_lowIndex]
  rfl

theorem lowIndex_lowIndex (s : State) : lowIndex (lowIndex s) = lowIndex s := by simp [lowIndex, relabel]

/-- Where an outcome is the other with the high bits of I cleared, clearing them in both gives the same. -/
theorem mapNext_lowIndex_eq {o o' : Result} (h : o' = mapNext lowIndex o) : mapNext lowIndex o' = mapNext lowIndex o := by
  rw [h]
  cases o with
  | next t => exact congrArg Host.Outcome.next (lowIndex_lowIndex t)
  | fault | refused => rfl

/-- An instruction ends alike but for the high bits of I, whether they were there before it or not. -/
theorem exec_lowIndex (i : Instr) (s : State) : mapNext lowIndex (exec i (lowIndex s)) = mapNext lowIndex (exec i s) := by
  by_cases hi : touchesIndex i = true
  · cases i with
    | ldI | ldF => rfl
    | addI x => exact congrArg (fun w => Host.Outcome.next { s with i := w }) (low_low_add ..)
    | ldB x => exact mapNext_lowIndex_eq (execLdB_lowIndex x s)
    | drw x y n => exact mapNext_lowIndex_eq (execDrw_lowIndex x y n s)
    | dump x =>
      rw [exec_dump, execDump_lowIndex]
      exact congrArg Host.Outcome.next (lowIndex_advanceIndex ..)
    | load x =>
      rw [exec_load, execLoad_lowIndex]
      exact congrArg Host.Outcome.next (lowIndex_advanceIndex ..)
    | _ => cases hi
  · exact mapNext_lowIndex_eq (exec_relabel low id s (fun h => absurd h hi) (fun _ => rfl))

theorem fetchWord_lowIndex (s : State) : fetchWord (lowIndex s) = fetchWord s := fetchWord_congr rfl rfl

theorem step_lowIndex (s : State) : mapNext lowIndex (step (lowIndex s)) = mapNext lowIndex (step s) := by
  have hf := fetchWord_lowIndex s
  cases hd : decodeWord (fetchWord s) with
  | ok i =>
    rw [step_of_decoded hd, step_of_decoded (hf ▸ hd)]
    exact exec_lowIndex i s.advance
  | error r =>
    rw [step_of_unknown hd, step_of_unknown (hf ▸ hd)]
    exact congrArg Host.Outcome.next (lowIndex_lowIndex s.advance)

/-- The same for each of the six operations. -/
theorem perform_lowIndex (op : Op) (s : State) : mapNext lowIndex (perform op (lowIndex s)) = mapNext lowIndex (perform op s) := by
  cases op with
  | step => simpa using step_lowIndex s
  | reset => rfl
  | tick => exact congrArg Host.Outcome.next (lowIndex_lowIndex (opTick s))
  | load bytes =>
    refine mapNext_lowIndex_eq ?_
    rw [perform_load, perform_load, opLoad, opLoad, opLoadWith, opLoadWith]
    split <;> rfl
  | keySet k =>
    refine mapNext_lowIndex_eq ?_
    rw [perform_keySet, perform_keySet, opKeySet, opKeySet]
    split <;> rfl
  | keyClear k =>
    refine mapNext_lowIndex_eq ?_
    rw [perform_keyClear, perform_keyClear, opKeyClear, opKeyClear]
    split <;> rfl

/-- A core with the high bits of I cleared. -/
def clearHigh : Condition → Condition
  | .running s => .running (lowIndex s)
  | .faulted f n => .faulted f n

theorem condition_sameButHighIndex_iff (c d : Condition) :
    Safety.Condition.sameButHighIndex c d ↔ clearHigh c = clearHigh d := by
  cases c with
  | running s =>
    cases d with
    | running t => exact (sameButHighIndex_iff s t).trans (Condition.running.injEq ..).symm.to_iff
    | faulted g m => simp [clearHigh, Safety.Condition.sameButHighIndex]
  | faulted f n => cases d <;> simp [clearHigh, Safety.Condition.sameButHighIndex]

/-- What an operation on a running core with `n` bytes consumed comes to, from its outcome. -/
def conclude (n : Nat) : Result → Except Refusal Condition
  | .next t => .ok (.running t)
  | .fault f => .ok (.faulted f n)
  | .refused r => .error r

theorem applyOp_running_eq (op : Op) (s : State) : applyOp op (.running s) = conclude s.draws (perform op s) := by
  rw [applyOp_running]
  cases perform op s <;> rfl

theorem conclude_map (n : Nat) (o : Result) : (conclude n o).map clearHigh = conclude n (mapNext lowIndex o) := by
  cases o <;> rfl

theorem applyOp_clearHigh (op : Op) (c : Condition) :
    (applyOp op (clearHigh c)).map clearHigh = (applyOp op c).map clearHigh := by
  cases c with
  | faulted f n => rfl
  | running s =>
    calc (applyOp op (.running (lowIndex s))).map clearHigh
      _ = conclude s.draws (mapNext lowIndex (perform op (lowIndex s))) := by rw [applyOp_running_eq, conclude_map]; rfl
      _ = conclude s.draws (mapNext lowIndex (perform op s)) := by rw [perform_lowIndex]
      _ = (applyOp op (.running s)).map clearHigh := by rw [applyOp_running_eq, conclude_map]

/-- One operation keeps two cores alike, or refuses both alike. -/
theorem applyOp_congr (op : Op) {c d : Condition} (h : clearHigh c = clearHigh d) :
    (applyOp op c).map clearHigh = (applyOp op d).map clearHigh := by
  rw [← applyOp_clearHigh, h, applyOp_clearHigh]

/-- Results that agree under `clearHigh` are two alike cores or the same refusal. -/
theorem map_clearHigh_cases {x y : Except Refusal Condition} (h : x.map clearHigh = y.map clearHigh) :
    (∃ c d, x = .ok c ∧ y = .ok d ∧ clearHigh c = clearHigh d) ∨ ∃ r, x = .error r ∧ y = .error r := by
  cases x with
  | ok c =>
    cases y with
    | ok d => exact .inl ⟨c, d, rfl, rfl, Except.ok.inj h⟩
    | error q => cases h
  | error r =>
    cases y with
    | ok d => cases h
    | error q => exact .inr ⟨r, rfl, by rw [Except.error.inj h]⟩

/-- Every schedule keeps two cores alike, or ends in the same refusal. -/
theorem runOps_congr (ops : List Op) {c d : Condition} (h : clearHigh c = clearHigh d) :
    (runOps ops c).map clearHigh = (runOps ops d).map clearHigh := by
  induction ops generalizing c d with
  | nil => exact congrArg Except.ok h
  | cons op ops ih =>
    rw [runOps_cons, runOps_cons]
    obtain ⟨c', d', hc, hd, h'⟩ | ⟨r, hc, hd⟩ := map_clearHigh_cases (applyOp_congr op h)
    · rw [hc, hd]; exact ih h'
    · rw [hc, hd]

/-- Settles O27: with the high bits of I cleared, the two schedules end alike. -/
theorem highIndexBitsUnobservable : Obligations.HighIndexBitsUnobservable := by
  intro ops c d h
  have hrun := runOps_congr ops ((condition_sameButHighIndex_iff ..).1 h)
  obtain ⟨c', d', hc, hd, h'⟩ | ⟨r, hc, hd⟩ := map_clearHigh_cases hrun
  · rw [hc, hd]; exact (condition_sameButHighIndex_iff ..).2 h'
  · rw [hc, hd]

end Sys2Proof.Proofs.CoreState
end

section
/-! PROOFS. The rules of memory, spec/20_memory.md R50 to R57. The family rests on two facts, each said once: a completed
instruction leaves the memory of before with `storedBytes` stored from I on (`exec_mem`), and a canonical memory lists exactly the
bytes that differ from the reset image (`mem_iff_read`). -/

namespace Sys2Proof.Proofs.MemArray

open Sys2Proof.Machine Sys2Proof.Safety

/-! ### What an instruction stores -/

/-- The bytes an instruction stores from I on, executed in `s` (spec/20_memory.md R56). -/
def storedBytes (s : State) : Instr → List Byte
  | .ldB x => bcdDigits (s.readV x)
  | .dump x => s.readVs (rangeCount x)
  | _ => []

theorem storedBytes_length (s : State) (i : Instr) : (storedBytes s i).length = storedCount i := by
  cases i with
  | dump x => exact State.readVs_length s (rangeCount x)
  | _ => rfl

theorem execRet_mem {s t : State} (h : execRet s = .next t) : t.mem = s.mem := by
  cases hs : s.stack with
  | nil => rw [execRet_of_nil hs] at h; cases h
  | cons w rest => rw [execRet_of_cons hs] at h; cases h; rfl

theorem execLdVxKey_mem {x : RegIdx} {s t : State} (h : execLdVxKey x s = .next t) : t.mem = s.mem := by
  cases hk : s.lowestKey with
  | none => rw [execLdVxKey_of_none hk] at h; cases h; rfl
  | some k => rw [execLdVxKey_of_some hk] at h; cases h; rfl

/-- Memory after any instruction that completes: only the bytes it stores are written, all of them through the array. -/
theorem exec_mem {i : Instr} {s t : State} (h : exec i s = .next t) :
    t.mem = memWriteBytes s.mem (dataAddr s.i 0) (storedBytes s i) := by
  cases i with
  | ret => exact execRet_mem h
  | ldVxKey x => exact execLdVxKey_mem h
  | seImm | sneImm | seReg | sneReg | skp | sknp => cases h; exact State.skipIf_mem s _
  | load x => cases h; exact State.writeVs_mem s 0 _
  | _ => cases h; rfl

/-- Settles O19: a byte outside the stored ones is outside the store that `exec_mem` names. -/
theorem bytesOutsideStoresUnchanged : Obligations.BytesOutsideStoresUnchanged := by
  intro i s t a h ha
  rw [exec_mem h]
  refine memWriteBytes_read_other s.mem _ _ fun j hj => ?_
  exact ha j (storedBytes_length s i ▸ hj)

/-! ### The invariant -/

theorem exec_keeps_stateInv {i : Instr} {s t : State} (hs : StateInv s) (h : exec i s = .next t) : StateInv t := by
  rw [StateInv, exec_mem h]
  exact memWriteBytes_wf hs _ _

/-- Settles O14: by the two cases of a step, since the fetch leaves memory alone and every store keeps the canonical form. -/
theorem stepKeepsInvariant : Obligations.StepKeepsInvariant := by
  intro s t hs h
  have hadv : StateInv s.advance := hs
  obtain ⟨i, _, he⟩ | ⟨r, _, ht⟩ := step_cases h
  · exact exec_keeps_stateInv hadv he
  · cases ht
    exact hadv

/-! ### The canonical form -/

/-- A listed byte is what its address reads as: no earlier entry has that address. -/
theorem read_of_mem {m : Memory} (hm : m.wf) {c : Host.Cell} (hc : c ∈ m) : m.read c.1 = c.2 := by
  induction m with
  | nil => cases hc
  | cons d m ih =>
    rcases List.mem_cons.1 hc with rfl | hc
    · exact if_pos rfl
    · have hlt : d.1 < c.1 := List.rel_of_pairwise_cons hm.1 hc
      rw [Memory.read, if_neg hlt.ne']
      exact ih (Memory.wf_tail hm) hc

/-- An address that reads as something else than the reset image is listed, with that byte. -/
theorem mem_of_read_ne_blank {m : Memory} (hm : m.wf) {a : Nat} (h : m.read a ≠ blankByte a) : (a, m.read a) ∈ m := by
  by_contra hnot
  refine h (Memory.read_of_not_listed ?_)
  rintro ⟨_, b⟩ hc rfl
  exact hnot (by rwa [read_of_mem hm hc])

/-- The entries of a canonical memory, by what it reads as: the addresses of the array that differ from the reset image. -/
theorem mem_iff_read {m : Memory} (hm : m.wf) (c : Host.Cell) :
    c ∈ m ↔ c.1 < memSize ∧ m.read c.1 = c.2 ∧ c.2 ≠ blankByte c.1 := by
  constructor
  · intro hc
    obtain ⟨hlt, hne⟩ := hm.2 c hc
    exact ⟨hlt, read_of_mem hm hc, hne⟩
  · rintro ⟨_, hr, hne⟩
    have hmem : (c.1, m.read c.1) ∈ m := mem_of_read_ne_blank hm (hr ▸ hne)
    rwa [hr] at hmem

/-- Settles O12: the bytes decide the entries, and the rising addresses decide their order. -/
theorem canonicalMemoryIsItsBytes : Obligations.CanonicalMemoryIsItsBytes := by
  intro m n hm hn h
  refine hm.1.eq_of_mem_iff hn.1 fun c => ?_
  rw [mem_iff_read hm, mem_iff_read hn]
  exact and_congr_right fun hlt => by rw [h c.1 hlt]

/-! ### The fetched word -/

/-- The byte at the lower address is the high half of the word (spec/20_memory.md R53). -/
theorem wordOfBytes_toNat (hi lo : Byte) : (wordOfBytes hi lo).toNat = 256 * hi.toNat + lo.toNat :=
  calc (wordOfBytes hi lo).toNat
    _ = hi.toNat <<< 8 ||| lo.toNat := BitVec.toNat_append hi lo
    _ = 2 ^ 8 * hi.toNat + lo.toNat := by
      rw [Nat.shiftLeft_eq, Nat.mul_comm, Nat.two_pow_add_eq_or_of_lt lo.isLt]

/-- Settles O8: the fetch puts together the two bytes it reads through the array. -/
theorem fetchIsBigEndianAndWraps : Obligations.FetchIsBigEndianAndWraps := fun _ => wordOfBytes_toNat ..

end Sys2Proof.Proofs.MemArray
end

section
/-! PROOFS. The encoding of instructions, spec/30_encoding.md R70 to R79. The family rests on the decoder's cases by
the group of the word, said once (`decodeWord_by_group`), and on two facts about the rows of the table: a decoded word matches the
row of its mnemonic (`decoded_in_row`), a rejected word matches none (`not_matches_of_isUnknown`). -/

namespace Sys2Proof.Proofs.Encoding

open Sys2Proof.Laws Sys2Proof.Safety

/-! ### The fields as numbers -/

/-- Settles O2: a slice of bits is a quotient and a remainder of the number, and the two concatenations are laws of the fields. -/
theorem fieldsOfTheWord : Obligations.FieldsOfTheWord := by
  intro w
  have hslice (start len : Nat) : (w.extractLsb' start len).toNat = w.toNat / 2 ^ start % 2 ^ len := by
    rw [BitVec.extractLsb'_toNat, Nat.shiftRight_eq_div_pow]
  have hlow (len : Nat) : (w.extractLsb' 0 len).toNat = w.toNat % 2 ^ len := BitVec.extractLsb'_toNat 0 len w
  have hop : w.toNat / 4096 < 16 := Nat.div_lt_of_lt_mul w.isLt
  exact ⟨(hslice 12 4).trans (Nat.mod_eq_of_lt hop), hslice 8 4, hslice 4 4, hlow 4, hlow 8, hlow 12, fieldNN_eq w,
    (fieldNNN_eq w).trans (by rw [fieldNN_eq])⟩

/-! ### Decoding an encoded instruction -/

theorem decodeWord_encode (i : Instr) : decodeWord (encode i) = .ok i := by
  cases i with
  | cls | ret => simp [encode, decodeWord, decodeGroup0]
  | ldReg | orReg | andReg | xorReg | addReg | sub | shr | subn | shl => simp [encode, decodeWord, decodeGroup8]
  | skp | sknp => simp [encode, decodeWord, decodeGroupE]
  | ldVxDt | ldVxKey | ldDtVx | ldStVx | addI | ldF | ldB | dump | load => simp [encode, decodeWord, decodeGroupF]
  | _ => simp [encode, decodeWord]

theorem decodeBytes_encodeBytes (i : Instr) (rest : List Byte) : decodeBytes (encodeBytes i ++ rest) = .ok (i, rest) :=
  calc decodeBytes (encodeBytes i ++ rest)
    _ = decodeBytes (wordHi (encode i) :: wordLo (encode i) :: rest) := rfl
    _ = .ok (i, rest) := by rw [decodeBytes_cons, wordOfBytes_hi_lo, decodeWord_encode]

/-- Settles O3: the decoder switches on fields that the encoder has written. -/
theorem decodeOfEncode : Obligations.DecodeOfEncode :=
  fun i rest _ => ⟨decodeWord_encode i, decodeBytes_encodeBytes i rest⟩

/-- Settles O1: each word is evaluated. -/
theorem specWordsDecode : Obligations.SpecWordsDecode := by
  unfold Obligations.SpecWordsDecode
  decide

/-! ### The bits that an instruction keeps of its word -/

/-- A mask acts on each of the four nibbles of a word by itself. -/
theorem encodeXYN_and (op x y n op' x' y' n' : Nibble) :
    encodeXYN op x y n &&& encodeXYN op' x' y' n' = encodeXYN (op &&& op') (x &&& x') (y &&& y') (n &&& n') :=
  BitVec.and_append.trans (congrArg _ (BitVec.and_append.trans (congrArg _ BitVec.and_append)))

theorem and_0xF (n : Nibble) : n &&& 0xF#4 = n := BitVec.and_allOnes

theorem and_0xFFFF (w : Word) : w &&& 0xFFFF#16 = w := BitVec.and_allOnes

/-- Groups 5 and 9 ignore N (spec/30_encoding.md R77). -/
theorem and_0xFFF0 (w : Word) : w &&& 0xFFF0#16 = encodeXYN (fieldOp w) (fieldX w) (fieldY w) 0x0#4 :=
  calc w &&& 0xFFF0#16
    _ = encodeXYN (fieldOp w) (fieldX w) (fieldY w) (fieldN w) &&& encodeXYN 0xF#4 0xF#4 0xF#4 0x0#4 := by
      rw [encodeXYN_fields]; rfl
    _ = encodeXYN (fieldOp w) (fieldX w) (fieldY w) 0x0#4 := by simp only [encodeXYN_and, and_0xF, BitVec.and_zero]

/-- SHR and SHL ignore Y (spec/30_encoding.md R77). -/
theorem and_0xFF0F (w : Word) : w &&& 0xFF0F#16 = encodeXYN (fieldOp w) (fieldX w) 0x0#4 (fieldN w) :=
  calc w &&& 0xFF0F#16
    _ = encodeXYN (fieldOp w) (fieldX w) (fieldY w) (fieldN w) &&& encodeXYN 0xF#4 0xF#4 0x0#4 0xF#4 := by
      rw [encodeXYN_fields]; rfl
    _ = encodeXYN (fieldOp w) (fieldX w) 0x0#4 (fieldN w) := by simp only [encodeXYN_and, and_0xF, BitVec.and_zero]

/-- CLS and RET ignore X (spec/30_encoding.md R77). -/
theorem and_0xF0FF (w : Word) : w &&& 0xF0FF#16 = encodeXNN (fieldOp w) 0x0#4 (fieldNN w) := by
  simpa using EncodedInRow.maskXNN (fieldOp w) (fieldX w) (fieldNN w)

/-! ### The decoder by the group of the word -/

/-- In a group of one instruction every word decodes to it (spec/30_encoding.md R74). -/
theorem decodeWord_of_single_group {w : Word} (h : fieldOp w ∉ [0x0#4, 0x8#4, 0xE#4, 0xF#4]) :
    ∃ i, decodeWord w = .ok i ∧ encode i = w &&& significantMask i := by
  have hops : ∀ op : Nibble, op ∉ [0x0#4, 0x8#4, 0xE#4, 0xF#4] → op = 1#4 ∨ op = 2#4 ∨ op = 3#4 ∨ op = 4#4 ∨ op = 5#4 ∨
    op = 6#4 ∨ op = 7#4 ∨ op = 9#4 ∨ op = 0xA#4 ∨ op = 0xB#4 ∨ op = 0xC#4 ∨ op = 0xD#4 := by decide
  rcases hops _ h with hop | hop | hop | hop | hop | hop | hop | hop | hop | hop | hop | hop
  all_goals
    simp only [decodeWord, hop, BitVec.reduceEq, ↓reduceIte, Except.ok.injEq, exists_eq_left']
    simp [encode, significantMask, and_0xFFFF, and_0xFFF0, ← hop]

/-- The cases of the decoder (spec/30_encoding.md R74): four groups switch once more, the others are one instruction each. -/
theorem decodeWord_by_group (w : Word) :
    (fieldOp w = 0x0#4 ∧ decodeWord w = decodeGroup0 (fieldNN w)) ∨
    (fieldOp w = 0x8#4 ∧ decodeWord w = decodeGroup8 (fieldX w) (fieldY w) (fieldN w)) ∨
    (fieldOp w = 0xE#4 ∧ decodeWord w = decodeGroupE (fieldX w) (fieldNN w)) ∨
    (fieldOp w = 0xF#4 ∧ decodeWord w = decodeGroupF (fieldX w) (fieldNN w)) ∨
    (fieldOp w ∉ [0x0#4, 0x8#4, 0xE#4, 0xF#4] ∧ ∃ i, decodeWord w = .ok i ∧ encode i = w &&& significantMask i) := by
  by_cases h : fieldOp w ∈ [0x0#4, 0x8#4, 0xE#4, 0xF#4]
  · simp only [List.mem_cons, List.not_mem_nil, or_false] at h
    rcases h with h | h | h | h <;> simp [decodeWord, h]
  · exact .inr (.inr (.inr (.inr ⟨h, decodeWord_of_single_group h⟩)))

theorem encode_of_decodeGroup0 {w : Word} {i : Instr} (hop : fieldOp w = 0x0#4) (h : decodeGroup0 (fieldNN w) = .ok i) :
    encode i = w &&& significantMask i := by
  unfold decodeGroup0 at h
  split_ifs at h with hnn hnn <;> cases h <;> simp [encode, significantMask, and_0xF0FF, hop, hnn]

theorem encode_of_decodeGroup8 {w : Word} {i : Instr} (hop : fieldOp w = 0x8#4)
    (h : decodeGroup8 (fieldX w) (fieldY w) (fieldN w) = .ok i) : encode i = w &&& significantMask i := by
  unfold decodeGroup8 at h
  split_ifs at h <;> cases h
  all_goals simp [encode, significantMask, and_0xFFFF, and_0xFF0F, ← hop, ← ‹fieldN w = _›]

theorem encode_of_decodeGroupE {w : Word} {i : Instr} (hop : fieldOp w = 0xE#4)
    (h : decodeGroupE (fieldX w) (fieldNN w) = .ok i) : encode i = w &&& significantMask i := by
  unfold decodeGroupE at h
  split_ifs at h <;> cases h
  all_goals simp [encode, significantMask, and_0xFFFF, ← hop, ← ‹fieldNN w = _›]

theorem encode_of_decodeGroupF {w : Word} {i : Instr} (hop : fieldOp w = 0xF#4)
    (h : decodeGroupF (fieldX w) (fieldNN w) = .ok i) : encode i = w &&& significantMask i := by
  unfold decodeGroupF at h
  split_ifs at h <;> cases h
  all_goals simp [encode, significantMask, and_0xFFFF, ← hop, ← ‹fieldNN w = _›]

/-- Settles O4: by the group of the word. -/
theorem encodeOfDecode : Obligations.EncodeOfDecode := by
  intro w i h
  obtain ⟨hop, hd⟩ | ⟨hop, hd⟩ | ⟨hop, hd⟩ | ⟨hop, hd⟩ | ⟨-, j, hd, hj⟩ := decodeWord_by_group w
  · exact encode_of_decodeGroup0 hop (hd ▸ h)
  · exact encode_of_decodeGroup8 hop (hd ▸ h)
  · exact encode_of_decodeGroupE hop (hd ▸ h)
  · exact encode_of_decodeGroupF hop (hd ▸ h)
  · cases hd.symm.trans h
    exact hj

/-! ### The words that are rejected (R76) -/

/-- The unknown words, by the fields of the word. -/
theorem isUnknown_iff_fields (w : Word) : isUnknown w ↔
    (fieldOp w = 0x0#4 ∧ fieldNN w ∉ [0xE0#8, 0xEE#8]) ∨
    (fieldOp w = 0x8#4 ∧ fieldN w ∈ [0x8#4, 0x9#4, 0xA#4, 0xB#4, 0xC#4, 0xD#4, 0xF#4]) ∨
    (fieldOp w = 0xE#4 ∧ fieldNN w ∉ [0x9E#8, 0xA1#8]) ∨
    (fieldOp w = 0xF#4 ∧ fieldNN w ∉ [0x07#8, 0x0A#8, 0x15#8, 0x18#8, 0x1E#8, 0x29#8, 0x33#8, 0x55#8, 0x65#8]) := by
  obtain ⟨hop, -, -, hn, hnn, -⟩ := fieldsOfTheWord w
  simp [isUnknown, ← hop, ← hn, ← hnn, BitVec.toNat_eq]

theorem decodeGroup0_rejects (nn : Byte) : (∃ r, decodeGroup0 nn = .error r) ↔ nn ∉ [0xE0#8, 0xEE#8] := by
  unfold decodeGroup0
  split_ifs <;> simp [*]

theorem decodeGroup8_rejects (x y : RegIdx) (n : Nibble) :
    (∃ r, decodeGroup8 x y n = .error r) ↔ n ∈ [0x8#4, 0x9#4, 0xA#4, 0xB#4, 0xC#4, 0xD#4, 0xF#4] := by
  have hsub : ∀ n : Nibble, n ∈ [0x8#4, 0x9#4, 0xA#4, 0xB#4, 0xC#4, 0xD#4, 0xF#4] ↔
      n ∉ [0x0#4, 0x1#4, 0x2#4, 0x3#4, 0x4#4, 0x5#4, 0x6#4, 0x7#4, 0xE#4] := by decide
  rw [hsub]
  unfold decodeGroup8
  split_ifs <;> simp [*]

theorem decodeGroupE_rejects (x : RegIdx) (nn : Byte) : (∃ r, decodeGroupE x nn = .error r) ↔ nn ∉ [0x9E#8, 0xA1#8] := by
  unfold decodeGroupE
  split_ifs <;> simp [*]

theorem decodeGroupF_rejects (x : RegIdx) (nn : Byte) : (∃ r, decodeGroupF x nn = .error r) ↔
    nn ∉ [0x07#8, 0x0A#8, 0x15#8, 0x18#8, 0x1E#8, 0x29#8, 0x33#8, 0x55#8, 0x65#8] := by
  unfold decodeGroupF
  split_ifs <;> simp [*]

/-- Settles O7: each group rejects its own unknown words, and a group of one instruction none. -/
theorem rejectedWordsAreTheUnknownOnes : Obligations.RejectedWordsAreTheUnknownOnes := by
  intro w
  rw [isUnknown_iff_fields]
  obtain ⟨hop, hd⟩ | ⟨hop, hd⟩ | ⟨hop, hd⟩ | ⟨hop, hd⟩ | ⟨hop, i, hd, -⟩ := decodeWord_by_group w
  · rw [hd, hop, decodeGroup0_rejects]; simp
  · rw [hd, hop, decodeGroup8_rejects]; simp
  · rw [hd, hop, decodeGroupE_rejects]; simp
  · rw [hd, hop, decodeGroupF_rejects]; simp
  · simp only [List.mem_cons, List.not_mem_nil, or_false, not_or] at hop
    simp [hd, hop]

/-! ### The rows of the table (R75) -/

theorem matches_iff (r : Row) (w : Word) : r.matches w = true ↔ w &&& r.mask = r.value := beq_iff_eq

/-- Two rows whose values agree on the bits that both test are one row. -/
theorem row_eq_of_values_agree :
    ∀ r ∈ opcodeTable, ∀ q ∈ opcodeTable, r.value &&& q.mask = q.value &&& r.mask → r = q := by decide

/-- Settles O6: the values of two rows that match one word agree on the bits that both rows test. -/
theorem tableRowsDisjoint : Obligations.TableRowsDisjoint := by
  intro w r q hr hq hrw hqw
  rw [matches_iff] at hrw hqw
  refine row_eq_of_values_agree r hr q hq ?_
  calc r.value &&& q.mask
    _ = w &&& r.mask &&& q.mask := by rw [hrw]
    _ = w &&& q.mask &&& r.mask := by ac_rfl
    _ = q.value &&& r.mask := by rw [hqw]

/-! ### A rejected word matches no row -/

/-- Every row tests the whole group, and the whole sub-opcode where the group switches once more. -/
theorem mask_fields : ∀ r ∈ opcodeTable, fieldOp r.mask = 0xF#4 ∧
    (fieldOp r.value ∈ [0x0#4, 0xE#4, 0xF#4] → fieldNN r.mask = 0xFF#8) ∧ (fieldOp r.value = 0x8#4 → fieldN r.mask = 0xF#4) := by
  decide

theorem not_isUnknown_value : ∀ r ∈ opcodeTable, ¬ isUnknown r.value := by
  unfold isUnknown
  decide

/-- A word and the value of a row it matches have the same group, and the same sub-opcode where the group has one. -/
theorem fields_of_matches {r : Row} (hr : r ∈ opcodeTable) {w : Word} (h : r.matches w = true) :
    fieldOp r.value = fieldOp w ∧ (fieldOp w ∈ [0x0#4, 0xE#4, 0xF#4] → fieldNN r.value = fieldNN w) ∧
      (fieldOp w = 0x8#4 → fieldN r.value = fieldN w) := by
  have hfield (start len : Nat) (hm : r.mask.extractLsb' start len = BitVec.allOnes len) :
      r.value.extractLsb' start len = w.extractLsb' start len := by
    rw [← (matches_iff r w).1 h, BitVec.extractLsb'_and, hm, BitVec.and_allOnes]
  obtain ⟨hop, hnn, hn⟩ := mask_fields r hr
  have hgroup : fieldOp r.value = fieldOp w := hfield 12 4 hop
  rw [hgroup] at hnn hn
  exact ⟨hgroup, fun hw => hfield 0 8 (hnn hw), fun hw => hfield 0 4 (hn hw)⟩

theorem not_matches_of_isUnknown {r : Row} (hr : r ∈ opcodeTable) {w : Word} (hw : isUnknown w) : ¬ r.matches w = true := by
  intro h
  obtain ⟨hop, hnn, hn⟩ := fields_of_matches hr h
  refine not_isUnknown_value r hr ?_
  rw [isUnknown_iff_fields] at hw ⊢
  obtain hw | hw | hw | hw := hw
  · exact .inl (by rwa [hop, hnn (by simp [hw.1])])
  · exact .inr (.inl (by rwa [hop, hn hw.1]))
  · exact .inr (.inr (.inl (by rwa [hop, hnn (by simp [hw.1])])))
  · exact .inr (.inr (.inr (by rwa [hop, hnn (by simp [hw.1])])))

/-! ### A decoded word matches the row of its mnemonic -/

theorem mnemonics_nodup : (opcodeTable.map Row.mnemonic).Nodup := by decide

/-- The row of an instruction tests no bit that the instruction ignores (spec/30_encoding.md R77). -/
theorem significantMask_and_mask (i : Instr) :
    ∀ r ∈ opcodeTable, r.mnemonic = i.mnemonic → significantMask i &&& r.mask = r.mask := by
  cases i with
  | cls | ret | seReg | sneReg | shr | shl => dsimp only [Instr.mnemonic, significantMask]; decide
  | _ => exact fun r _ _ => BitVec.allOnes_and

/-- The per-instruction statements of Laws/PerInstr.lean as one. -/
theorem encoded_in_row (i : Instr) : EncodedInRow.Statement i := by
  open EncodedInRow in
  exact i.casesOn cls ret jp call seImm sneImm seReg ldImm addImm ldReg orReg andReg xorReg addReg sub shr subn shl
    sneReg ldI jpV0 rnd drw skp sknp ldVxDt ldVxKey ldDtVx ldStVx addI ldF ldB dump load

theorem decoded_in_row {w : Word} {i : Instr} (h : decodeWord w = .ok i) :
    ∃ r ∈ opcodeTable, r.mnemonic = i.mnemonic ∧ r.matches w = true := by
  obtain ⟨r, hr, hname, hm⟩ := encoded_in_row i
  refine ⟨r, hr, hname, ?_⟩
  rw [matches_iff] at hm ⊢
  calc w &&& r.mask
    _ = w &&& (significantMask i &&& r.mask) := by rw [significantMask_and_mask i r hr hname]
    _ = encode i &&& r.mask := by rw [encodeOfDecode w i h, BitVec.and_assoc]
    _ = r.value := hm

/-- Settles O5: a decoded word matches the row of its mnemonic and by disjointness no other, and a rejected word matches none. -/
theorem decodeFollowsTable : Obligations.DecodeFollowsTable := by
  intro w r hr
  constructor
  · intro hm
    cases hd : decodeWord w with
    | ok i =>
      obtain ⟨q, hq, hname, hqm⟩ := decoded_in_row hd
      exact ⟨i, rfl, tableRowsDisjoint w q r hq hr hqm hm ▸ hname.symm⟩
    | error e => exact absurd hm (not_matches_of_isUnknown hr ((rejectedWordsAreTheUnknownOnes w).1 ⟨e, hd⟩))
  · rintro ⟨i, hd, hi⟩
    obtain ⟨q, hq, hname, hqm⟩ := decoded_in_row hd
    exact List.inj_on_of_nodup_map mnemonics_nodup hq hr (hname.trans hi) ▸ hqm

end Sys2Proof.Proofs.Encoding
end

section
/-! PROOFS. The step, spec/40_fetch_decode_execute.md R90 to R96. Two facts carry the family: where PC stands after each
instruction that completes (`exec_pc`), and that an instruction which is no RND commutes with every change of the position in the
random sequence (`exec_atDraw`). -/

namespace Sys2Proof.Proofs.FetchExecute

open Sys2Proof.Machine Sys2Proof.Safety

/-! ### Fetch, advance, execute -/

/-- Settles O9: the state the instruction is executed on is the advanced one. -/
theorem stepRunsDecodedInstruction : Obligations.StepRunsDecodedInstruction := fun _ _ hd _ => step_of_decoded hd

/-- Settles O10: a word that rule R76 lists is one the decoder rejects. -/
theorem unknownWordOnlyAdvancesPc : Obligations.UnknownWordOnlyAdvancesPc := by
  intro s hs
  obtain ⟨r, hr⟩ := (Encoding.rejectedWordsAreTheUnknownOnes _).2 hs
  exact step_of_unknown hr

/-! ### The placed word -/

/-- A word placed at PC is the word fetched there, whether or not its second byte wraps (spec/20_memory.md R52). -/
theorem fetchWord_placeWord {s : State} (hs : StateInv s) (w : Word) : fetchWord (s.placeWord w) = w := by
  have hstored {j : Nat} (hj : j < 2) :
      memRead (s.placeWord w).mem (s.pc.toNat + j) = [wordHi w, wordLo w][j] :=
    memWriteBytes_read_stored hs s.pc.toNat [wordHi w, wordLo w] (show 2 ≤ 4096 by decide) hj
  calc fetchWord (s.placeWord w)
    _ = wordOfBytes (wordHi w) (wordLo w) := congrArg₂ wordOfBytes (hstored Nat.zero_lt_two) (hstored Nat.one_lt_two)
    _ = w := wordOfBytes_hi_lo w

/-- Placing a word leaves every byte outside PC and PC + 1 alone, in any memory. -/
theorem placeWord_read_other (s : State) (w : Word) {a : Nat} (h0 : a ≠ s.pc.toNat % 4096)
    (h1 : a ≠ (s.pc.toNat + 1) % 4096) : (s.placeWord w).mem.read a = s.mem.read a := by
  refine memWriteBytes_read_other s.mem s.pc.toNat [wordHi w, wordLo w] fun j hj => ?_
  match j, hj with
  | 0, _ => exact h0
  | 1, _ => exact h1

/-- The table numbers the bits of one word as the number it is. -/
theorem tableWord_16 (w : Nat) : tableWord 16 w = BitVec.ofNat 16 w :=
  BitVec.eq_of_toNat_eq (by simp [tableWord])

/-- Settles O11: the placed word is read back from its two bytes, and nothing else is written. -/
theorem placedWordIsFetched : Obligations.PlacedWordIsFetched := by
  intro s w hs _
  rw [State.withFetchWord, tableWord_16]
  exact ⟨fetchWord_placeWord hs _, rfl, fun a _ h0 h1 => placeWord_read_other s _ h0 h1⟩

/-! ### The program counter -/

theorem zextAddr_eq (nnn : Addr) : zextAddr nnn = BitVec.ofNat 16 nnn.toNat := (BitVec.ofNat_toNat ..).symm

theorem zextByte_eq (b : Byte) : zextByte b = BitVec.ofNat 16 b.toNat := (BitVec.ofNat_toNat ..).symm

/-- The low nibble is the remainder modulo 16 (decision D9). -/
theorem keyIndex_eq (b : Byte) : keyIndex b = BitVec.ofNat 4 (b.toNat % 16) :=
  BitVec.eq_of_toNat_eq (by simp [keyIndex, BitVec.extractLsb'_toNat])

@[simp] theorem readKey_advance (s : State) (k : Nibble) : s.advance.readKey k = s.readKey k := rfl

/-- A skip in the execute phase ends 4 or 2 past the skipping word (spec/41_control_flow.md R105). -/
theorem pc_of_skip {s t : State} {c : Bool} (h : Host.Outcome.next (s.advance.skipIf c) = (.next t : Result)) :
    t.pc = if c then s.pc + 4#16 else s.pc + 2#16 := by
  cases h
  rw [State.skipIf_pc, State.advance_pc, BitVec.add_assoc]
  rfl

theorem execRet_pc {s t : State} (h : execRet s.advance = .next t) : t.pc = pcAfter s (.ok .ret) := by
  cases hs : s.stack with
  | nil => rw [execRet_of_nil (s := s.advance) hs] at h; cases h
  | cons w rest => rw [execRet_of_cons (s := s.advance) hs] at h; cases h; simp [pcAfter, hs]

/-- Get key waits on its own word while no key is pressed (spec/45_keypad_and_timers.md R172). -/
theorem execLdVxKey_pc {x : RegIdx} {s t : State} (h : execLdVxKey x s.advance = .next t) :
    t.pc = pcAfter s (.ok (.ldVxKey x)) := by
  have hkey : s.lowestKey = none ↔ ¬ ∃ k, s.readKey k = true := by simp [State.lowestKey_eq_none]
  cases hk : s.lowestKey with
  | none =>
    rw [execLdVxKey_of_none (s := s.advance) hk] at h
    cases h
    simp [pcAfter, hkey.1 hk]
  | some k =>
    rw [execLdVxKey_of_some (s := s.advance) hk] at h
    cases h
    have hpressed : ∃ k, s.readKey k = true := not_not.1 (hkey.not.1 (by simp [hk]))
    exact (if_pos hpressed).symm

/-- PC after every instruction that completes: the table of rule R93, row by row. -/
theorem exec_pc {i : Instr} {s t : State} (h : exec i s.advance = .next t) : t.pc = pcAfter s (.ok i) := by
  cases i with
  | ret => exact execRet_pc h
  | ldVxKey x => exact execLdVxKey_pc h
  | jp nnn | call nnn => cases h; exact zextAddr_eq nnn
  | jpV0 nnn =>
    cases h
    rw [State.jump_pc, zextByte_eq, zextAddr_eq, ← BitVec.ofNat_add]
    rfl
  | seImm | seReg | sneImm | sneReg => exact (pc_of_skip h).trans (by simp [pcAfter])
  | skp => exact (pc_of_skip h).trans (by simp [pcAfter, keyIndex_eq])
  | sknp =>
    refine (pc_of_skip h).trans ?_
    simp only [pcAfter, keyIndex_eq, readKey_advance, State.readV_advance, Bool.not_eq_true', ← Bool.not_eq_true, ite_not]
  | load => cases h; exact State.writeVs_pc ..
  | _ => cases h; rfl

/-- Settles O17: by the two cases of a step. -/
theorem pcAfterStepFollowsTable : Obligations.PcAfterStepFollowsTable := by
  intro s t h
  obtain ⟨i, hd, he⟩ | ⟨r, hd, ht⟩ := step_cases h
  · rw [hd]; exact exec_pc he
  · cases ht; rw [hd]; rfl

/-! ### The random input -/

/-- The state with the random byte at position `n` next. -/
def atDraw (n : Nat) (s : State) : State := { s with draws := n }

section AtDraw

variable (n : Nat) (s : State)

theorem skipIf_atDraw (c : Bool) : (atDraw n s).skipIf c = atDraw n (s.skipIf c) := by cases c <;> rfl

theorem writeVs_atDraw (j : Nat) (bs : List Byte) : (atDraw n s).writeVs j bs = atDraw n (s.writeVs j bs) := by
  induction bs generalizing s j with
  | nil => rfl
  | cons b bs ih =>
    simp only [State.writeVs]
    split
    · exact ih (s.writeV _ b) (j + 1)
    · rfl

theorem execRet_atDraw : execRet (atDraw n s) = mapNext (atDraw n) (execRet s) := by
  cases hs : s.stack with
  | nil => rw [execRet_of_nil hs, execRet_of_nil (s := atDraw n s) hs]; rfl
  | cons w rest => rw [execRet_of_cons hs, execRet_of_cons (s := atDraw n s) hs]; rfl

theorem execLdVxKey_atDraw (x : RegIdx) : execLdVxKey x (atDraw n s) = mapNext (atDraw n) (execLdVxKey x s) := by
  cases hk : s.lowestKey with
  | none => rw [execLdVxKey_of_none hk, execLdVxKey_of_none (s := atDraw n s) hk]; rfl
  | some k => rw [execLdVxKey_of_some hk, execLdVxKey_of_some (s := atDraw n s) hk]; rfl

/-- An instruction that is no RND neither reads nor moves the position in the random sequence. -/
theorem exec_atDraw {i : Instr} (hi : ∀ x nn, i ≠ .rnd x nn) : exec i (atDraw n s) = mapNext (atDraw n) (exec i s) := by
  cases i with
  | rnd x nn => exact absurd rfl (hi x nn)
  | ret => exact execRet_atDraw n s
  | ldVxKey x => exact execLdVxKey_atDraw n s x
  | seImm | sneImm | seReg | sneReg | skp | sknp => exact congrArg Host.Outcome.next (skipIf_atDraw n s _)
  | load x => exact congrArg (fun t : State => Host.Outcome.next (t.advanceIndex x)) (writeVs_atDraw n s 0 _)
  | _ => rfl

end AtDraw

/-- Settles O25: every instruction but RND commutes with the change of the position. -/
theorem onlyRndReadsRandomInput : Obligations.OnlyRndReadsRandomInput := fun _ s n hi => exec_atDraw n s hi

end Sys2Proof.Proofs.FetchExecute
end

section
/-! PROOFS. Jumps, calls and register skips, spec/41_control_flow.md R101 to R109. Each instruction's answer is given as the state
with the fields it sets; CALL and RET so given compose to the way back. -/

namespace Sys2Proof.Proofs.ControlFlow

open Sys2Proof.Machine

/-! ### Jumps -/

/-- The target of JP V0, NNN as a number: the widened sum does not wrap (R104). -/
theorem zextByte_add_zextAddr (b : Byte) (nnn : Addr) :
    zextByte b + zextAddr nnn = BitVec.ofNat 16 (b.toNat + nnn.toNat) := by
  rw [FetchExecute.zextByte_eq, FetchExecute.zextAddr_eq, ← BitVec.ofNat_add]

/-- A byte and a 12-bit address add up to at most 0xFF + 0xFFF. -/
theorem toNat_byte_add_addr_le (b : Byte) (nnn : Addr) : b.toNat + nnn.toNat ≤ 0x10FE := by
  have hb : b.toNat < 256 := b.isLt
  have hn : nnn.toNat < 4096 := nnn.isLt
  omega

/-- Settles O28: both targets widened to 16 bits are the numbers of R101 and R104. -/
theorem jumpsSetPc : Obligations.JumpsSetPc := by
  refine ⟨fun nnn s => ?_, fun nnn s => ⟨?_, toNat_byte_add_addr_le _ nnn⟩⟩
  · rw [exec_jp, execJp, FetchExecute.zextAddr_eq, State.jump]
  · rw [exec_jpV0, execJpV0, zextByte_add_zextAddr, State.jump]

/-! ### Call and return -/

/-- CALL below the stack depth pushes PC whole and jumps, with all other fields kept (R102). -/
theorem push_jump_eq (nnn : Addr) (s : State) :
    (s.push s.pc).jump (zextAddr nnn) = { s with stack := s.pc :: s.stack, pc := BitVec.ofNat 16 nnn.toNat } := by
  rw [FetchExecute.zextAddr_eq, State.jump, State.push]

/-- Settles O29: the default depth is never reached, and a given depth is reached or not. -/
theorem callPushesOrOverflows : Obligations.CallPushesOrOverflows := by
  refine ⟨fun nnn s => ?_, fun depth nnn s => ?_⟩
  · rw [exec_call, execCall_eq, push_jump_eq]
  · split_ifs with hfull
    · rw [Scope.execCallWith_of_full ((Scope.stackFull_iff ..).2 hfull), raiseFault]
    · rw [execCallWith_of_not_full ((Scope.stackFull_eq_false_iff ..).2 hfull), push_jump_eq]

/-- Settles O30: by the two shapes of the stack. -/
theorem retPopsOrUnderflows : Obligations.RetPopsOrUnderflows :=
  ⟨fun _ _ _ hs => execRet_of_cons hs, fun _ hs => execRet_of_nil hs⟩

/-- Settles O31: CALL pushes the advanced PC, and RET pops it. -/
theorem returnComesBackAfterCall : Obligations.ReturnComesBackAfterCall := by
  intro s u nnn hcall
  refine ⟨_, (step_of_decoded hcall).trans (callPushesOrOverflows.1 nnn s.advance), rfl, fun hstack hret => ?_⟩
  have hu : u.advance.stack = (s.pc + 2#16) :: s.stack := hstack
  calc step u
    _ = exec .ret u.advance := step_of_decoded hret
    _ = .next { u.advance with stack := s.stack, pc := s.pc + 2#16 } := retPopsOrUnderflows.1 _ _ _ hu
    _ = .next { u with pc := s.pc + 2#16, stack := s.stack } := rfl

/-! ### Register skips -/

/-- A skip changes PC alone, by 2 more on its condition (R105). -/
theorem skipIf_eq (s : State) (c : Bool) : s.skipIf c = { s with pc := if c then s.pc + 2#16 else s.pc } :=
  (CoreState.skipIf_frame s c).trans (by rw [State.skipIf_pc])

/-- A skip on equality, as SE. -/
theorem skipIf_beq (a b : Byte) (s : State) : s.skipIf (a == b) = { s with pc := if a = b then s.pc + 2#16 else s.pc } := by
  simp only [skipIf_eq, beq_iff_eq]

/-- A skip on inequality, as SNE: the complement of SE. -/
theorem skipIf_bne (a b : Byte) (s : State) : s.skipIf (a != b) = { s with pc := if a = b then s.pc else s.pc + 2#16 } := by
  simp only [skipIf_eq, bne_iff_ne, ne_eq, ite_not]

/-- Settles O32: SE skips on equality and SNE on inequality, with an immediate and with a register. -/
theorem registerSkips : Obligations.RegisterSkips :=
  ⟨fun _ _ _ => ⟨congrArg Host.Outcome.next (skipIf_beq ..), congrArg Host.Outcome.next (skipIf_bne ..)⟩,
    fun _ _ _ => ⟨congrArg Host.Outcome.next (skipIf_beq ..), congrArg Host.Outcome.next (skipIf_bne ..)⟩⟩

end Sys2Proof.Proofs.ControlFlow
end

section
/-! PROOFS. Register arithmetic, logic, shifts and random, spec/42_alu.md R120 to R132. Each instruction writes through `writeV` or
`writeFlagThenResult`, whose frames are said once; what is left of a form is its value, and its flag, as a number. -/

namespace Sys2Proof.Proofs.Alu

open Sys2Proof.Machine Sys2Proof.Safety

/-! ### The registers an instruction leaves alone -/

theorem readV_writeV_of_ne {s : State} {x r : RegIdx} {b : Byte} (h : r ≠ x) : (s.writeV x b).readV r = s.readV r := by
  rw [State.readV_writeV, if_neg h]

theorem readV_writeFlagThenResult_of_notMem {s : State} {x r : RegIdx} {flag result : Byte} (h : r ∉ [flagReg, x]) :
    (s.writeFlagThenResult x flag result).readV r = s.readV r := by
  have hx : r ≠ x := List.ne_of_not_mem_cons (List.not_mem_of_not_mem_cons h)
  rw [State.readV_writeFlagThenResult, if_neg hx, if_neg (List.ne_of_not_mem_cons h)]

theorem execRet_readV {s t : State} (h : execRet s = .next t) (r : RegIdx) : t.readV r = s.readV r := by
  cases hs : s.stack with
  | nil => rw [execRet_of_nil hs] at h; cases h
  | cons w rest => rw [execRet_of_cons hs] at h; cases h; rfl

theorem execLdVxKey_readV_of_ne {x r : RegIdx} {s t : State} (h : execLdVxKey x s = .next t) (hr : r ≠ x) :
    t.readV r = s.readV r := by
  cases hk : s.lowestKey with
  | none => rw [execLdVxKey_of_none hk] at h; cases h; rfl
  | some k => rw [execLdVxKey_of_some hk] at h; cases h; exact readV_writeV_of_ne hr

/-- The load writes V[0] to V[x] (spec/43_index_and_memory.md R146). -/
theorem mem_writtenRegs_load {x r : RegIdx} : r ∈ writtenRegs (.load x) ↔ r.toNat < rangeCount x := by
  simp only [writtenRegs, List.mem_map, List.mem_range, rangeCount]
  constructor
  · rintro ⟨j, hj, rfl⟩
    exact Nat.lt_of_le_of_lt (Nat.mod_le ..) hj
  · exact fun h => ⟨r.toNat, h, by simp⟩

theorem execLoad_readV_of_notMem {x r : RegIdx} {s t : State} (h : execLoad x s = .next t) (hr : r ∉ writtenRegs (.load x)) :
    t.readV r = s.readV r := by
  cases h
  have hbytes : 0 + (memReadBytes s.mem (dataAddr s.i 0) (rangeCount x)).length ≤ 16 := by
    simpa [rangeCount] using x.isLt
  have hout : rangeCount x ≤ r.toNat := Nat.le_of_not_lt (mt mem_writtenRegs_load.2 hr)
  rw [State.readV_advanceIndex, State.readV_writeVs s 0 _ hbytes, List.getElem?_eq_none (by simpa using hout)]
  exact ite_self _

/-- Settles O18: by instruction, since a write of V[x] or of the flag and V[x] leaves every other register. -/
theorem unnamedRegistersUnchanged : Obligations.UnnamedRegistersUnchanged := by
  intro i s t r h hr
  cases i with
  | ret => exact execRet_readV h r
  | seImm | sneImm | seReg | sneReg | skp | sknp => cases h; exact State.readV_skipIf s _ r
  | ldImm | addImm | ldReg | orReg | andReg | xorReg | rnd | drw | ldVxDt =>
    cases h
    exact readV_writeV_of_ne (List.ne_of_not_mem_cons hr)
  | addReg | sub | shr | subn | shl => cases h; exact readV_writeFlagThenResult_of_notMem hr
  | ldVxKey => exact execLdVxKey_readV_of_ne h (List.ne_of_not_mem_cons hr)
  | load => exact execLoad_readV_of_notMem h hr
  | _ => cases h; rfl

/-! ### The flag -/

theorem flagByte_eq_zero_or_one (c : Bool) : flagByte c = 0x00#8 ∨ flagByte c = 0x01#8 := by
  cases c with
  | false => exact .inl rfl
  | true => exact .inr rfl

theorem readV_flagReg_writeFlagThenResult {s : State} {x : RegIdx} {flag result : Byte} (hx : (x != flagReg) = true) :
    (s.writeFlagThenResult x flag result).readV flagReg = flag := by
  rw [State.readV_writeFlagThenResult, if_neg (Ne.symm (bne_iff_ne.1 hx)), if_pos rfl]

/-- An instruction that leaves a flag leaves a truth value as a byte. -/
theorem exec_leaves_flagByte {i : Instr} {s t : State} (h : exec i s = .next t) (hi : leavesFlag i = true) :
    ∃ c, t.readV flagReg = flagByte c := by
  cases i with
  | addReg | sub | shr | subn | shl => cases h; exact ⟨_, readV_flagReg_writeFlagThenResult hi⟩
  | drw => cases h; exact ⟨_, (State.readV_writeV ..).trans (if_pos rfl)⟩
  | _ => cases hi

/-- Settles O24: a truth value as a byte is 0 or 1. -/
theorem flagIsZeroOrOne : Obligations.FlagIsZeroOrOne := by
  intro i s t h hi
  obtain ⟨c, hc⟩ := exec_leaves_flagByte h hi
  exact hc ▸ flagByte_eq_zero_or_one c

/-! ### The two kinds of write as effects -/

theorem writesV_writeV (s : State) (x : RegIdx) {a b : Byte} (h : a = b) : WritesV s (s.writeV x a) x b :=
  ⟨rfl, by rw [State.readV_writeV, if_pos rfl, h], fun _ hr => readV_writeV_of_ne hr⟩

theorem writesFlagAndV_writeFlagThenResult (s : State) (x : RegIdx) {c f a b : Byte} (hf : c = f) (h : a = b) :
    WritesFlagAndV s (s.writeFlagThenResult x c a) x f b :=
  ⟨rfl, by rw [State.readV_writeFlagThenResult, if_pos rfl, h],
    fun hx => (readV_flagReg_writeFlagThenResult (bne_iff_ne.2 hx)).trans hf,
    fun r hx hr => readV_writeFlagThenResult_of_notMem (by simp [hx, hr])⟩

/-! ### Bytes as numbers (R120) -/

theorem eq_ofNat_of_toNat_eq {a : Byte} {n : Nat} (h : a.toNat = n) : a = BitVec.ofNat 8 n := (BitVec.toNat_eq_nat.1 h).2

theorem add_eq_ofNat (a b : Byte) : a + b = BitVec.ofNat 8 ((a.toNat + b.toNat) % 256) :=
  eq_ofNat_of_toNat_eq (BitVec.toNat_add a b)

theorem sub_eq_ofNat (a b : Byte) : a - b = BitVec.ofNat 8 ((256 + a.toNat - b.toNat) % 256) := by
  refine eq_ofNat_of_toNat_eq ?_
  have hb : b.toNat < 256 := b.isLt
  rw [BitVec.toNat_sub, Nat.sub_add_comm (Nat.le_of_lt hb)]

theorem or_eq_ofNat (a b : Byte) : a ||| b = BitVec.ofNat 8 (a.toNat ||| b.toNat) := eq_ofNat_of_toNat_eq (BitVec.toNat_or ..)

theorem and_eq_ofNat (a b : Byte) : a &&& b = BitVec.ofNat 8 (a.toNat &&& b.toNat) := eq_ofNat_of_toNat_eq (BitVec.toNat_and ..)

theorem xor_eq_ofNat (a b : Byte) : a ^^^ b = BitVec.ofNat 8 (a.toNat ^^^ b.toNat) := eq_ofNat_of_toNat_eq (BitVec.toNat_xor ..)

theorem shiftRight_one_eq_ofNat (a : Byte) : a >>> 1 = BitVec.ofNat 8 (a.toNat / 2) :=
  eq_ofNat_of_toNat_eq ((BitVec.toNat_ushiftRight a 1).trans (Nat.shiftRight_eq_div_pow ..))

theorem shiftLeft_one_eq_ofNat (a : Byte) : a <<< 1 = BitVec.ofNat 8 (a.toNat * 2 % 256) :=
  eq_ofNat_of_toNat_eq (by rw [BitVec.toNat_shiftLeft, Nat.shiftLeft_eq])

/-! ### Flags as numbers (R127 to R131) -/

theorem flagByte_decide (p : Prop) [Decidable p] : flagByte (decide p) = if p then 0x01#8 else 0x00#8 := by
  simp only [flagByte, decide_eq_true_eq]

theorem addCarry_eq (a b : Byte) : addCarry a b = if a.toNat + b.toNat > 255 then 0x01#8 else 0x00#8 := flagByte_decide _

theorem subNotBorrow_eq (a b : Byte) : subNotBorrow a b = if b.toNat > a.toNat then 0x00#8 else 0x01#8 := by
  simp only [subNotBorrow, flagByte_decide, ← Nat.not_lt, ite_not, gt_iff_lt]

/-- Bit `j` of a byte as a flag is that binary digit. -/
theorem flagByte_getLsbD (a : Byte) (j : Nat) : flagByte (a.getLsbD j) = BitVec.ofNat 8 (a.toNat / 2 ^ j % 2) := by
  rw [← BitVec.testBit_toNat, ← Nat.toNat_testBit]
  cases a.toNat.testBit j <;> rfl

theorem shrOut_eq (a : Byte) : shrOut a = BitVec.ofNat 8 (a.toNat % 2) := by
  rw [shrOut, flagByte_getLsbD, Nat.pow_zero, Nat.div_one]

theorem shlOut_eq (a : Byte) : shlOut a = BitVec.ofNat 8 (a.toNat / 128) := by
  have ha : a.toNat < 256 := a.isLt
  have hbit : a.toNat / 128 < 2 := by omega
  exact (flagByte_getLsbD a 7).trans (congrArg (BitVec.ofNat 8) (Nat.mod_eq_of_lt hbit))

/-! ### The instructions -/

/-- Settles O34: one write of V[x], of the sum as a number for ADD. -/
theorem immediateForms : Obligations.ImmediateForms := fun x _ s =>
  ⟨⟨_, rfl, writesV_writeV s x rfl⟩, ⟨_, rfl, writesV_writeV s x (add_eq_ofNat ..)⟩⟩

/-- Settles O35: one write of V[x], the logic being that of the numbers. -/
theorem moveAndLogic : Obligations.MoveAndLogic := fun x _ s =>
  ⟨⟨_, rfl, writesV_writeV s x rfl⟩, ⟨_, rfl, writesV_writeV s x (or_eq_ofNat ..)⟩,
    ⟨_, rfl, writesV_writeV s x (and_eq_ofNat ..)⟩, ⟨_, rfl, writesV_writeV s x (xor_eq_ofNat ..)⟩⟩

/-- Settles O36: the carry and the sum as numbers. -/
theorem addRegisters : Obligations.AddRegisters := fun x _ s =>
  ⟨_, rfl, writesFlagAndV_writeFlagThenResult s x (addCarry_eq ..) (add_eq_ofNat ..)⟩

/-- Settles O37: the not-borrow and the difference as numbers, SUBN with the operands exchanged. -/
theorem subtractions : Obligations.Subtractions := fun x _ s =>
  ⟨⟨_, rfl, writesFlagAndV_writeFlagThenResult s x (subNotBorrow_eq ..) (sub_eq_ofNat ..)⟩,
    ⟨_, rfl, writesFlagAndV_writeFlagThenResult s x (subNotBorrow_eq ..) (sub_eq_ofNat ..)⟩⟩

/-- Settles O38: the bit shifted out and the shifted byte as numbers. -/
theorem shifts : Obligations.Shifts := fun x s =>
  ⟨⟨_, rfl, writesFlagAndV_writeFlagThenResult s x (shrOut_eq _) (shiftRight_one_eq_ofNat _)⟩,
    ⟨_, rfl, writesFlagAndV_writeFlagThenResult s x (shlOut_eq _) (shiftLeft_one_eq_ofNat _)⟩⟩

/-- Settles O39: whatever byte is presented, it is written masked and then consumed. -/
theorem randomAnd : Obligations.RandomAnd := by
  intro x nn s
  refine ⟨_, rfl, rfl, ?_, fun r hr => ?_⟩
  · rw [State.readV_consumeRandom, State.readV_randomAnd, if_pos rfl]
  · rw [State.readV_consumeRandom, State.readV_randomAnd, if_neg hr]

end Sys2Proof.Proofs.Alu
end

section
/-! PROOFS. The index register and the instructions that move data through it, spec/43_index_and_memory.md R140 to R146. Two facts
carry the family: a stored byte reads back at its own address (`exec_read_stored`), and every register after a load, whether from
memory or kept (`execLoad_readV`). -/

namespace Sys2Proof.Proofs.IndexMemory

open Sys2Proof.Machine Sys2Proof.Safety

/-! ### I as a number -/

/-- A sum in I wraps modulo 65536 (decision D2). -/
theorem add_ofNat_eq (w : Word) (n : Nat) : w + BitVec.ofNat 16 n = BitVec.ofNat 16 ((w.toNat + n) % 65536) :=
  BitVec.eq_of_toNat_eq (by simp)

/-- The product of LD F does not wrap (R143). -/
theorem glyphAddr_eq (b : Byte) : glyphAddr b = BitVec.ofNat 16 (b.toNat * 5) := by
  rw [glyphAddr, FetchExecute.zextByte_eq, ← BitVec.ofNat_mul]

theorem advanceIndex_eq (s : State) (x : RegIdx) :
    s.advanceIndex x = { s with i := BitVec.ofNat 16 ((s.i.toNat + x.toNat + 1) % 65536) } := by
  rw [State.advanceIndex, add_ofNat_eq, State.writeI, rangeCount, Nat.add_assoc]

/-- Settles O40: I is written alone, and its new value is the number of the rule. -/
theorem indexSetters : Obligations.IndexSetters := by
  refine ⟨fun nnn s => ?_, fun x s => ⟨?_, ?_, ?_⟩⟩
  · rw [exec_ldI, execLdI, FetchExecute.zextAddr_eq, State.writeI]
  · rw [exec_addI, execAddI, FetchExecute.zextByte_eq, add_ofNat_eq, State.writeI]
  · rw [exec_ldF, execLdF, glyphAddr_eq, State.writeI]
  · exact Nat.mul_le_mul_right 5 (Nat.le_of_lt_succ (s.readV x).isLt)

/-! ### Stores through I -/

theorem lt_rangeCount_iff {n : Nat} {x : RegIdx} : n < rangeCount x ↔ n ≤ x.toNat := Nat.lt_succ_iff

theorem rangeCount_le (x : RegIdx) : rangeCount x ≤ 16 := x.isLt

/-- No store is long enough to meet its own first byte again. -/
theorem storedCount_le_memSize (i : Instr) : storedCount i ≤ memSize := by
  cases i with
  | dump x => exact Nat.le_trans (rangeCount_le x) (by decide)
  | ldB x => exact (by decide : 3 ≤ memSize)
  | _ => exact Nat.zero_le _

/-- From canonical memory each stored byte reads back at its own address. -/
theorem exec_read_stored {i : Instr} {s t : State} (hs : StateInv s) (h : exec i s = .next t) {j : Nat}
    (hj : j < (MemArray.storedBytes s i).length) :
    t.mem.read (arrayAddr (dataAddr s.i j)) = (MemArray.storedBytes s i)[j] := by
  have hlen : (MemArray.storedBytes s i).length ≤ memSize := MemArray.storedBytes_length s i ▸ storedCount_le_memSize i
  rw [MemArray.exec_mem h]
  exact memWriteBytes_read_stored hs (dataAddr s.i 0) _ hlen hj

/-- Settles O41: the digits are the bytes that LD B stores. -/
theorem storeBcd : Obligations.StoreBcd := by
  intro x s
  have hexec : exec (.ldB x) s = .next _ := exec_ldB x s
  have hlen : (MemArray.storedBytes s (.ldB x)).length = 3 := rfl
  refine ⟨_, hexec, rfl, fun hs => ⟨?_, ?_, ?_⟩, fun a ha => MemArray.bytesOutsideStoresUnchanged _ _ _ a hexec ha⟩
  · exact exec_read_stored hs hexec (j := 0) (by omega)
  · exact exec_read_stored hs hexec (j := 1) (by omega)
  · exact exec_read_stored hs hexec (j := 2) (by omega)

theorem readVs_getElem (s : State) {n : Nat} {r : RegIdx} (h : r.toNat < (s.readVs n).length) :
    (s.readVs n)[r.toNat] = s.readV r := by
  simp [State.readVs]

/-- Settles O42: the registers V[0] to V[x] are the bytes that the dump stores. -/
theorem registerDump : Obligations.RegisterDump := by
  intro x s
  have hexec : exec (.dump x) s = .next _ := exec_dump x s
  refine ⟨_, hexec, advanceIndex_eq .., fun hs r hr => ?_, fun a ha => MemArray.bytesOutsideStoresUnchanged _ _ _ a hexec ha⟩
  have hlen : r.toNat < (s.readVs (rangeCount x)).length := by
    rw [State.readVs_length]
    exact lt_rangeCount_iff.2 hr
  exact (exec_read_stored hs hexec hlen).trans (readVs_getElem s hlen)

/-! ### Loads through I -/

/-- Every register after a load: V[0] to V[x] come from memory, each from its own address, and the others are kept. -/
theorem execLoad_readV {x : RegIdx} {s t : State} (h : execLoad x s = .next t) (r : RegIdx) :
    t.readV r = if r.toNat ≤ x.toNat then memRead s.mem (dataAddr s.i r.toNat) else s.readV r := by
  have hbytes : 0 + (memReadBytes s.mem (dataAddr s.i 0) (rangeCount x)).length ≤ 16 := by
    simpa using rangeCount_le x
  cases h
  rw [State.readV_advanceIndex, State.readV_writeVs s 0 _ hbytes, if_pos (Nat.zero_le _), Nat.sub_zero, memReadBytes_getElem?]
  simp only [lt_rangeCount_iff]
  split_ifs
  · rfl
  · rfl

/-- Settles O43: the load changes V and I alone, and `execLoad_readV` gives every register. -/
theorem registerLoad : Obligations.RegisterLoad := by
  intro x s
  have hexec : exec (.load x) s = .next _ := exec_load x s
  refine ⟨_, hexec, ?_, execLoad_readV hexec⟩
  rw [advanceIndex_eq, State.writeVs_i, CoreState.writeVs_frame]

/-- Settles O44: the load reads the addresses that the dump stored to, since the array does not see the high bits of I. -/
theorem loadRestoresDump : Obligations.LoadRestoresDump := by
  intro x s hs
  obtain ⟨t, ht, -, hstored, -⟩ := registerDump x s
  refine ⟨t, ht, fun u hmem hi => ?_⟩
  obtain ⟨w, hw, -, hloaded⟩ := registerLoad x u
  refine ⟨w, hw, fun r hr => ?_⟩
  have haddr : (u.i.toNat + r.toNat) % 4096 = arrayAddr (dataAddr s.i r.toNat) := Nat.ModEq.add_right r.toNat hi
  calc w.readV r
    _ = u.mem.read ((u.i.toNat + r.toNat) % 4096) := (hloaded r).trans (if_pos hr)
    _ = t.mem.read (arrayAddr (dataAddr s.i r.toNat)) := by rw [hmem, haddr]
    _ = s.readV r := hstored hs r hr

end Sys2Proof.Proofs.IndexMemory
end

section
/-! PROOFS. The display, spec/44_display.md R160 to R163. What the compositor does to each pixel (`Canvas.drawRows_spec`) is carried
to the covered pixels of rule R162 by `rowsCover_iff_spriteCovers`; drawing twice is then `drawSprite` used twice. -/

namespace Sys2Proof.Proofs.Display

open Sys2Proof.Machine Sys2Proof.Safety

/-! ### Clear screen -/

/-- Settles O45: CLS writes the cleared grid. -/
theorem clearScreen : Obligations.ClearScreen := fun s => ⟨_, exec_cls s, rfl, Framebuffer.pixel_clear⟩

/-! ### Who changes the framebuffer -/

theorem execRet_fb {s t : State} (h : execRet s = .next t) : t.fb = s.fb := by
  cases hs : s.stack with
  | nil => rw [execRet_of_nil hs] at h; cases h
  | cons w rest => rw [execRet_of_cons hs] at h; cases h; rfl

theorem execLdVxKey_fb {x : RegIdx} {s t : State} (h : execLdVxKey x s = .next t) : t.fb = s.fb := by
  cases hk : s.lowestKey with
  | none => rw [execLdVxKey_of_none hk] at h; cases h; rfl
  | some k => rw [execLdVxKey_of_some hk] at h; cases h; rfl

/-- An instruction that completes keeps the framebuffer, unless it is CLS or DRW. -/
theorem exec_fb_eq_or {i : Instr} {s t : State} (h : exec i s = .next t) :
    t.fb = s.fb ∨ i = .cls ∨ ∃ x y n, i = .drw x y n := by
  cases i with
  | cls => exact .inr (.inl rfl)
  | drw x y n => exact .inr (.inr ⟨x, y, n, rfl⟩)
  | ret => exact .inl (execRet_fb h)
  | ldVxKey => exact .inl (execLdVxKey_fb h)
  | seImm | sneImm | seReg | sneReg | skp | sknp => cases h; exact .inl (State.skipIf_fb s _)
  | load => cases h; exact .inl (State.writeVs_fb s 0 _)
  | _ => cases h; exact .inl rfl

/-- Settles O21: only a step reaches the framebuffer besides Reset, and of the instructions only CLS and DRW. -/
theorem framebufferChangers : Obligations.FramebufferChangers := by
  intro op s t h hne
  obtain rfl | ⟨rfl, hs⟩ | ht := CoreState.perform_cases h
  · exact .inl rfl
  · obtain ⟨i, hd, he⟩ | ⟨r, _, ht⟩ := step_cases hs
    · obtain rfl | ⟨x, y, n, rfl⟩ := (exec_fb_eq_or he).resolve_left hne
      · exact .inr ⟨rfl, .inl hd⟩
      · exact .inr ⟨rfl, .inr ⟨x, y, n, hd⟩⟩
    · cases ht
      exact absurd rfl hne
  · exact absurd (by rw [ht]) hne

/-! ### The sprite -/

/-- The bytes that DRW reads, drawn as rows, cover the pixels that rule R162 names. -/
theorem rowsCover_iff_spriteCovers (s : State) (vx vy : Byte) (n : Nibble) (py : Fin 32) (px : Fin 64) :
    Canvas.RowsCover vx vy 0 (memReadBytes s.mem (dataAddr s.i 0) n.toNat) py px ↔ spriteCovers s vx vy n py px := by
  have hrow (r : Nat) : py = pixelRow vy (0 + r) ↔ (vy.toNat + r) % 32 = py.val := by
    rw [Nat.zero_add, Fin.ext_iff, eq_comm]; rfl
  have hcol (c : Nat) : px = pixelColumn vx c ↔ (vx.toNat + c) % 64 = px.val := by
    rw [Fin.ext_iff, eq_comm]; rfl
  constructor
  · rintro ⟨r, b, hb, c, -, hc, hbit, hpy, hpx⟩
    rw [memReadBytes_getElem?, Option.ite_none_right_eq_some] at hb
    obtain ⟨hr, hb⟩ := hb
    cases hb
    exact ⟨r, c, hr, by omega, hbit, (hrow r).1 hpy, (hcol c).1 hpx⟩
  · rintro ⟨r, c, hr, hc, hbit, hpy, hpx⟩
    have hb := (memReadBytes_getElem? s.mem (dataAddr s.i 0) n.toNat r).trans (if_pos hr)
    exact ⟨r, _, hb, c, Nat.zero_le c, by omega, hbit, (hrow r).2 hpy, (hcol c).2 hpx⟩

/-- At most 15 rows are drawn, so no row meets itself again (R162 (c)). -/
theorem spriteRows_length_le (s : State) (n : Nibble) :
    0 + (memReadBytes s.mem (dataAddr s.i 0) n.toNat).length ≤ 32 := by
  have hn : n.toNat < 16 := n.isLt
  rw [memReadBytes_length]
  omega

section
variable {s : State} {x y : RegIdx} {n : Nibble} {py : Fin 32} {px : Fin 64}

theorem drawn_pixel_of_covers (h : spriteCovers s (s.readV x) (s.readV y) n py px) :
    (s.drawn x y n).grid.pixel py px = !s.fb.pixel py px :=
  ((Canvas.drawRows_spec _ _ _ 0 (spriteRows_length_le s n) _).1 py px).trans
    (if_pos ((rowsCover_iff_spriteCovers ..).2 h))

theorem drawn_pixel_of_not_covers (h : ¬ spriteCovers s (s.readV x) (s.readV y) n py px) :
    (s.drawn x y n).grid.pixel py px = s.fb.pixel py px :=
  ((Canvas.drawRows_spec _ _ _ 0 (spriteRows_length_le s n) _).1 py px).trans
    (if_neg (mt (rowsCover_iff_spriteCovers ..).1 h))

end

/-- A collision is marked exactly where a covered pixel was set. -/
theorem drawn_collision_iff (s : State) (x y : RegIdx) (n : Nibble) :
    (s.drawn x y n).collision = true ↔
      ∃ py px, spriteCovers s (s.readV x) (s.readV y) n py px ∧ s.fb.pixel py px = true := by
  rw [State.drawn, (Canvas.drawRows_spec _ _ _ 0 (spriteRows_length_le s n) _).2]
  simp [rowsCover_iff_spriteCovers]

/-- VF after DRW is the collision as a flag, even where x or y is 15 (R162 (d)). -/
theorem readV_flagReg_writeFB_writeV (s : State) (g : Framebuffer) (c : Bool) :
    ((s.writeFB g).writeV flagReg (flagByte c)).readV flagReg = flagByte c :=
  (State.readV_writeV ..).trans (if_pos rfl)

/-- Settles O46: the drawn picture is that of `drawn`, and VF is its collision mark. -/
theorem drawSprite : Obligations.DrawSprite := by
  intro x y n s
  refine ⟨_, exec_drw x y n s, rfl, fun _ _ => ⟨drawn_pixel_of_covers, drawn_pixel_of_not_covers⟩, fun h => ?_, fun h => ?_,
    fun _ hr => Alu.readV_writeV_of_ne hr⟩
  · rw [readV_flagReg_writeFB_writeV, (drawn_collision_iff ..).2 h]; rfl
  · rw [readV_flagReg_writeFB_writeV, Bool.eq_false_iff.2 (mt (drawn_collision_iff ..).1 h)]; rfl

/-- What a sprite covers depends on memory and I alone. -/
theorem spriteCovers_congr {s u : State} (hm : u.mem = s.mem) (hi : u.i = s.i) (vx vy : Byte) (n : Nibble) :
    spriteCovers u vx vy n = spriteCovers s vx vy n := by
  funext py px
  rw [spriteCovers, spriteCovers, hm, hi]

/-- Settles O47: the second sprite covers the same pixels, so each pixel is inverted twice or kept twice. -/
theorem drawTwiceRestores : Obligations.DrawTwiceRestores := by
  intro x y n s
  obtain ⟨t, ht, -, hfirst, -⟩ := drawSprite x y n s
  refine ⟨t, ht, fun u hfb hm hi hx hy => ?_⟩
  obtain ⟨w, hw, -, hsecond, hcollision, -⟩ := drawSprite x y n u
  rw [hx, hy, spriteCovers_congr hm hi, hfb] at hsecond hcollision
  refine ⟨w, hw, Framebuffer.ext_pixel fun py px => ?_, fun ⟨py, px, hcov, hclear⟩ => ?_⟩
  · by_cases hcov : spriteCovers s (s.readV x) (s.readV y) n py px
    · rw [(hsecond py px).1 hcov, (hfirst py px).1 hcov, Bool.not_not]
    · rw [(hsecond py px).2 hcov, (hfirst py px).2 hcov]
  · have hset : t.fb.pixel py px = true := by rw [(hfirst py px).1 hcov, hclear, Bool.not_false]
    exact hcollision ⟨py, px, hcov, hset⟩

end Sys2Proof.Proofs.Display
end

section
/-! PROOFS. The keypad and the timers, spec/45_keypad_and_timers.md R170 to R175. Get key is settled by what the scan of the keys
finds; that rewinding undoes the advance of the fetch phase then makes it stand still. -/

namespace Sys2Proof.Proofs.KeypadTimers

open Sys2Proof.Machine

/-! ### Get key -/

/-- Settles O48: the scan finds no key, or the lowest pressed one. -/
theorem getKey : Obligations.GetKey := by
  refine ⟨fun x s hnone => ?_, fun x s k hk hbelow => ?_⟩
  · exact execLdVxKey_of_none (s.lowestKey_eq_none.2 hnone) x
  · have hlowest : s.lowestKey = some k.toNat := (s.lowestKey_eq_some k).2 ⟨hk, hbelow⟩
    exact ⟨_, execLdVxKey_of_some hlowest x, Alu.writesV_writeV s x rfl⟩

/-! ### Standing still -/

/-- Going back by a word undoes the advance of the fetch phase, wherever PC wraps (decision D2). -/
theorem rewind_advance (s : State) : s.advance.rewind = s :=
  congrArg s.jump (BitVec.add_sub_cancel s.pc 2#16)

/-- Settles O49: get key rewinds the advanced PC, and the jump writes the PC that stood before the fetch. -/
theorem standingStill : Obligations.StandingStill := by
  refine ⟨fun x s hword hnone => ?_, fun nnn s hword hpc => ?_⟩
  · calc step s
      _ = exec (.ldVxKey x) s.advance := step_of_decoded hword
      _ = .next s.advance.rewind := getKey.1 x s.advance hnone
      _ = .next s := by rw [rewind_advance]
  · have htarget : BitVec.ofNat 16 nnn.toNat = s.pc := by rw [← hpc, BitVec.ofNat_toNat, BitVec.setWidth_eq]
    calc step s
      _ = exec (.jp nnn) s.advance := step_of_decoded hword
      _ = .next { s.advance with pc := BitVec.ofNat 16 nnn.toNat } := ControlFlow.jumpsSetPc.1 nnn s.advance
      _ = .next s := by rw [htarget]; rfl

/-! ### Key skips -/

/-- A skip on a condition that does not hold, as SKNP: the complement of SKP. -/
theorem skipIf_not (s : State) (c : Bool) : s.skipIf (!c) = { s with pc := if c then s.pc else s.pc + 2#16 } := by
  simp only [ControlFlow.skipIf_eq, Bool.not_eq_true', ← Bool.not_eq_true, ite_not]

/-- Settles O33: the key is the one of the low nibble, and SKNP is the complement of SKP. -/
theorem keySkips : Obligations.KeySkips := by
  intro x s
  rw [← FetchExecute.keyIndex_eq]
  exact ⟨congrArg Host.Outcome.next (ControlFlow.skipIf_eq ..), congrArg Host.Outcome.next (skipIf_not ..)⟩

/-! ### Timers -/

/-- Settles O50: one write of V[x], of DT, of ST. -/
theorem timerMoves : Obligations.TimerMoves := fun x s =>
  ⟨⟨_, exec_ldVxDt x s, Alu.writesV_writeV s x rfl⟩, exec_ldDtVx x s, exec_ldStVx x s⟩

end Sys2Proof.Proofs.KeypadTimers
end

section
/-! PROOFS. Stopping, schedules and the operations of the outside, spec/60_exceptions.md R200 to R213. Two facts carry the family: a
step either goes on or stands at RET with an empty stack (`step_next_or_emptyReturn`), and every operation under any parameters
keeps the canonical form of memory (`performWith_keeps_stateInv`). -/

namespace Sys2Proof.Proofs.Exceptions

open Sys2Proof.Machine Sys2Proof.Safety

/-! ### Key indices that the port cannot carry -/

/-- An index that the 4-bit port cannot carry is refused by KeySet (decision D17). -/
theorem opKeySet_of_le {k : Nat} (h : 16 ≤ k) (s : State) : opKeySet k s = .refused (.keyIndexTooWide k) := by
  simp [opKeySet, wfKeyIndex, h]

/-- The same for KeyClear. -/
theorem opKeyClear_of_le {k : Nat} (h : 16 ≤ k) (s : State) : opKeyClear k s = .refused (.keyIndexTooWide k) := by
  simp [opKeyClear, wfKeyIndex, h]

/-! ### The invariant along a schedule -/

/-- A step under any parameters: the CALL that overflows has no next state, and every other step is the default one. -/
theorem stepWith_keeps_stateInv (p : Params) {s t : State} (hs : StateInv s) (h : stepWith p s = .next t) : StateInv t := by
  by_cases hfull : ∃ nnn, decodeWord (fetchWord s) = .ok (.call nnn) ∧ s.stackFull p.stackDepth = true
  · obtain ⟨nnn, hd, hf⟩ := hfull
    rw [Scope.stepWith_call_of_full p hd hf] at h
    cases h
  · have hdefault : stepWith p s = step s :=
      Scope.stepWith_of_not_full p fun nnn hd => Bool.eq_false_iff.2 fun hf => hfull ⟨nnn, hd, hf⟩
    exact MemArray.stepKeepsInvariant s t hs (hdefault ▸ h)

theorem opResetWith_stateInv (p : Params) (s : State) : StateInv (opResetWith p s) := resetMemory_wf p.fontRom

theorem opLoadWith_keeps_stateInv (n : Nat) (bytes : List Byte) {s : State} (hs : StateInv s) :
    StateInv (opLoadWith n bytes s).state := by
  unfold opLoadWith
  split
  · exact memWriteBytes_wf hs progBase bytes
  · exact hs

/-- An operation that writes a key where the port carries the index and is refused elsewhere keeps the invariant: memory stays. -/
theorem stateInv_of_keyWrite {o : Result} {s t : State} {k : Nat} {b : Bool} (hs : StateInv s)
    (hlt : k < 16 → o = .next (s.writeKey (BitVec.ofNat 4 k) b)) (hle : 16 ≤ k → o = .refused (.keyIndexTooWide k))
    (h : o = .next t) : StateInv t := by
  obtain hk | hk := Nat.lt_or_ge k 16
  · rw [hlt hk] at h; cases h; exact hs
  · rw [hle hk] at h; cases h

/-- Every operation that has a next state keeps the invariant, under any parameters. -/
theorem performWith_keeps_stateInv (p : Params) {op : Op} {s t : State} (hs : StateInv s) (h : performWith p op s = .next t) :
    StateInv t := by
  cases op with
  | reset => cases h; exact opResetWith_stateInv p s
  | load bytes => cases h; exact opLoadWith_keeps_stateInv p.maxProgramLen bytes hs
  | step => exact stepWith_keeps_stateInv p hs h
  | tick => cases h; exact hs
  | keySet k => exact stateInv_of_keyWrite hs (opKeySet_of_lt · s) (opKeySet_of_le · s) h
  | keyClear k => exact stateInv_of_keyWrite hs (opKeyClear_of_lt · s) (opKeyClear_of_le · s) h

/-- One operation on a core in either condition keeps the invariant: a fault keeps no state, and Reset builds a new one. -/
theorem applyOpWith_keeps_stateInv (p : Params) {op : Op} {c d : Condition} (hc : Safety.Condition.StateInv c)
    (h : applyOpWith p op c = .ok d) : Safety.Condition.StateInv d := by
  cases c with
  | running s =>
    rw [applyOpWith_running] at h
    cases ho : performWith p op s with
    | next t => rw [ho] at h; cases h; exact performWith_keeps_stateInv p hc ho
    | fault f => rw [ho] at h; cases h; trivial
    | refused r => rw [ho] at h; cases h
  | faulted f n =>
    cases op with
    | reset => cases h; exact opResetWith_stateInv p _
    | _ => cases h

/-- Settles O15: by induction on the schedule, each operation keeping the invariant. -/
theorem schedulesKeepInvariant : Obligations.SchedulesKeepInvariant := by
  intro p ops
  induction ops with
  | nil => intro c d hc h; cases h; exact hc
  | cons op ops ih =>
    intro c d hc h
    rw [runOpsWith_cons] at h
    cases hop : applyOpWith p op c with
    | ok c' => rw [hop] at h; exact ih c' d (applyOpWith_keeps_stateInv p hc hop) h
    | error r => rw [hop] at h; cases h

/-! ### Where a step stops -/

/-- An instruction completes unless it is RET on an empty stack. -/
theorem exec_next_or_emptyReturn (i : Instr) (s : State) : (∃ t, exec i s = .next t) ∨ (i = .ret ∧ s.stack = []) := by
  cases i with
  | ret =>
    cases hs : s.stack with
    | nil => exact .inr ⟨rfl, rfl⟩
    | cons w rest => exact .inl ⟨_, execRet_of_cons hs⟩
  | ldVxKey x =>
    cases hk : s.lowestKey with
    | none => exact .inl ⟨_, execLdVxKey_of_none hk x⟩
    | some k => exact .inl ⟨_, execLdVxKey_of_some hk x⟩
  | _ => exact .inl ⟨_, rfl⟩

/-- A step goes on unless the word is RET and the stack empty: an unknown word never stops one (R94). -/
theorem step_next_or_emptyReturn (s : State) :
    (∃ t, step s = .next t) ∨ (decodeWord (fetchWord s) = .ok .ret ∧ s.stack = []) := by
  cases hd : decodeWord (fetchWord s) with
  | error r => exact .inl ⟨_, step_of_unknown hd⟩
  | ok i =>
    obtain hnext | ⟨rfl, hs⟩ := exec_next_or_emptyReturn i s.advance
    · exact .inl (step_of_decoded hd ▸ hnext)
    · exact .inr ⟨rfl, hs⟩

/-- RET with an empty stack is the underflow fault at the address of the RET word (R103, R202). -/
theorem step_of_emptyReturn {s : State} (hd : decodeWord (fetchWord s) = .ok .ret) (hs : s.stack = []) :
    step s = .fault (.stackUnderflow s.pc) :=
  calc step s
    _ = exec .ret s.advance := step_of_decoded hd
    _ = raiseFault .stackUnderflow s.advance := execRet_of_nil (s := s.advance) hs
    _ = .fault (.stackUnderflow s.pc) := Scope.raiseFault_advance _ s

/-- Settles O16: at RET with an empty stack the one fault is the underflow, and everywhere else the step goes on. -/
theorem stepStopsOnlyAtEmptyReturn : Obligations.StepStopsOnlyAtEmptyReturn := by
  intro s
  by_cases hret : decodeWord (fetchWord s) = .ok .ret ∧ s.stack = []
  · obtain ⟨hd, hs⟩ := hret
    rw [step_of_emptyReturn hd hs]
    refine ⟨fun f => ⟨fun h => ⟨hd, hs, (Host.Outcome.fault.inj h).symm⟩, ?_⟩, fun r h => by cases h⟩
    rintro ⟨_, _, rfl⟩
    rfl
  · obtain ⟨t, ht⟩ := (step_next_or_emptyReturn s).resolve_right hret
    rw [ht]
    refine ⟨fun f => ⟨fun h => (by cases h), ?_⟩, fun r h => by cases h⟩
    rintro ⟨hd, hs, _⟩
    exact absurd ⟨hd, hs⟩ hret

/-! ### Tick -/

/-- A timer counts down as a number, floored at 0 (R206). -/
theorem countDown_eq (b : Byte) : countDown b = BitVec.ofNat 8 (b.toNat - 1) := by
  unfold countDown
  split
  · next h => rw [h]; rfl
  · next h => bv_omega

/-- Settles O51: Tick writes the two timers, each counted down as a number. -/
theorem tickCountsDown : Obligations.TickCountsDown := by
  intro s
  rw [perform_tick, opTick, countDown_eq, countDown_eq]
  rfl

/-! ### Keys -/

/-- Writing one key twice is writing it once. -/
@[simp] theorem writeKey_writeKey (s : State) (k : Nibble) (b : Bool) : (s.writeKey k b).writeKey k b = s.writeKey k b := by
  simp only [State.writeKey, Vector.set_set]

/-- KEY[j] after the key of an index that the port carries was written, the index being a number. -/
theorem readKey_writeKey_ofNat (s : State) {k : Nat} (hk : k < 16) (b : Bool) (j : Nibble) :
    (s.writeKey (BitVec.ofNat 4 k) b).readKey j = if j.toNat = k then b else s.readKey j := by
  have hj : j = BitVec.ofNat 4 k ↔ j.toNat = k := by
    rw [← BitVec.toNat_inj, BitVec.toNat_ofNat, Nat.mod_eq_of_lt hk]
  simp only [State.readKey_writeKey, hj]

/-- What an operation that writes KEY[k] and answers does, and that doing it again changes nothing. -/
theorem keyWrite_spec {act : State → Result} {k : Nat} {b : Bool} (hk : k < 16)
    (hact : ∀ s, act s = .next (s.writeKey (BitVec.ofNat 4 k) b)) (s : State) :
    ∃ t, act s = .next t ∧ t = { s with key := t.key } ∧ act t = .next t ∧
      ∀ j : Nibble, t.readKey j = if j.toNat = k then b else s.readKey j :=
  ⟨_, hact s, rfl, by rw [hact, writeKey_writeKey], readKey_writeKey_ofNat s hk b⟩

/-- Settles O52: by whether the port carries the index, and Reset from the reset state's keys. -/
theorem keyOperations : Obligations.KeyOperations := by
  refine ⟨fun k s hk => ⟨?_, ?_⟩, fun k s hk => ⟨opKeySet_of_le hk s, opKeyClear_of_le hk s⟩, fun s t h j => ?_⟩
  · exact keyWrite_spec hk (opKeySet_of_lt hk) s
  · exact keyWrite_spec hk (opKeyClear_of_lt hk) s
  · cases h
    exact CoreState.readKey_reset j

/-! ### After a fault -/

/-- Settles O56: Reset at the defaults, and every other operation by name. -/
theorem onlyResetEndsAFault : Obligations.OnlyResetEndsAFault := by
  refine fun f n op => ⟨?_, fun hne => ?_⟩
  · rintro rfl
    exact congrArg (fun t => Except.ok (Condition.running t)) (opReset_eq { State.reset with draws := n })
  · cases op with
    | reset => exact absurd rfl hne
    | _ => rfl

/-! ### What the outside reads -/

/-- Settles O57: a byte is 0 exactly when its number is. -/
theorem soundSignal : Obligations.SoundSignal := fun s => by
  rw [State.soundOn, bne_iff_ne, BitVec.toNat_ne]
  rfl

theorem registers_getElem? (s : State) (r : RegIdx) : s.registers[r.toNat]? = some (s.readV r) := by
  rw [State.registers, State.readVs_getElem?, if_pos r.isLt, BitVec.ofNat_toNat, BitVec.setWidth_eq]

theorem keys_getElem? (s : State) (k : Nibble) : s.keys[k.toNat]? = some (s.readKey k) := by
  rw [State.keys, Vector.getElem?_toList, Vector.getElem?_eq_getElem k.isLt, State.readKey]

/-- The snapshot is the grid with its rows put one after another. -/
theorem framebufferSnapshot_eq (s : State) : s.framebufferSnapshot = s.fb.flatten.toList := by
  simp only [State.framebufferSnapshot, Vector.flatten, Vector.toList, Array.toList_flatten, Array.toList_map, List.map_map]
  rfl

/-- The pixel at (x, y) stands at index y * 64 + x, a row being 64 long (R211). -/
theorem framebufferSnapshot_getElem? (s : State) (y : Fin 32) (x : Fin 64) :
    s.framebufferSnapshot[y.val * 64 + x.val]? = some (s.fb.pixel y x) := by
  have hx := x.isLt
  have hi : y.val * 64 + x.val < 32 * 64 := by omega
  have hrow : (y.val * 64 + x.val) / 64 = y.val := by omega
  have hcol : (y.val * 64 + x.val) % 64 = x.val := by omega
  rw [framebufferSnapshot_eq, Vector.getElem?_toList, Vector.getElem?_eq_getElem hi, Vector.getElem_flatten]
  simp only [hrow, hcol, Framebuffer.pixel]

/-- Settles O58: each accessor by its entries; the stack snapshot is the stack reversed. -/
theorem accessorsReadTheState : Obligations.AccessorsReadTheState := fun s =>
  ⟨State.readVs_length s 16, registers_getElem? s, Vector.length_toList, keys_getElem? s, List.reverse_reverse s.stack,
    List.length_reverse, by rw [framebufferSnapshot_eq, Vector.length_toList], framebufferSnapshot_getElem? s⟩

end Sys2Proof.Proofs.Exceptions
end

section
/-! PROOFS. Load at the default MAX_PROGRAM_LEN, spec/70_reset_and_hazards.md R233 and R234: 3583 bytes from 0x200 on end at 0xFFE,
so the rules of an image that fits between 0x200 and 0xFFF apply to every accepted one. -/

namespace Sys2Proof.Proofs.ResetAndHazards

open Sys2Proof.Machine Sys2Proof.Safety

/-- An image of 1 to 3583 bytes is stored from 0x200 on (R233). -/
theorem opLoad_of_accepted {bytes : List Byte} (hpos : 0 < bytes.length) (hle : bytes.length ≤ 3583) (s : State) :
    opLoad bytes s = ⟨true, s.writeMem (memWriteBytes s.mem progBase bytes)⟩ :=
  opLoadWith_of_wf ((Scope.wfImage_iff Config.maxProgramLen bytes).2 ⟨hpos, hle⟩) s

/-- An empty image and one of more than 3583 bytes leave the state as it was (R234). -/
theorem opLoad_of_rejected {bytes : List Byte} (h : bytes.length = 0 ∨ 3583 < bytes.length) (s : State) :
    opLoad bytes s = ⟨false, s⟩ := by
  refine opLoadWith_of_not_wf (Bool.eq_false_iff.2 fun hwf => ?_) s
  obtain ⟨hpos, hle⟩ : 0 < bytes.length ∧ bytes.length ≤ 3583 := (Scope.wfImage_iff Config.maxProgramLen bytes).1 hwf
  omega

/-- Settles O53: the image is accepted and fits, so each byte reads back and every other byte is kept. -/
theorem loadSucceeds : Obligations.LoadSucceeds := by
  intro bytes s hpos hle
  have hfit : bytes.length ≤ 3584 := Nat.le_succ_of_le hle
  rw [perform_load, opLoad_of_accepted hpos hle]
  exact ⟨rfl, rfl, rfl, fun hs _ hi => Scope.load_read_stored hs hfit hi, fun _ _ ha => Scope.load_read_other s.mem hfit ha⟩

/-- Settles O54: the image is rejected, and the operation goes on in the state it had. -/
theorem loadFails : Obligations.LoadFails := by
  intro bytes s h
  rw [perform_load, opLoad_of_rejected h]
  exact ⟨rfl, rfl⟩

end Sys2Proof.Proofs.ResetAndHazards
end
